-- ==== Sys2Proof/Word.lean ====
section
/-! DEFINITION. The byte, the identifier word and the physical value of the core, with their plainest arithmetic. -/

namespace Sys2Proof

/-- One byte: a received character, a payload byte (10_state.md R21, R22). -/
abbrev Byte := BitVec 8

/-- The 32 parsed bits of a CAN identifier, of which bits 28:0 are significant (10_state.md R22). -/
abbrev CanId := BitVec 32

/-- A physical value, exact: the real number `p + r * DEG_PER_RAD` with `DEG_PER_RAD = 180 / pi`
(00_scope.md R13: every value a rule produces has this form with `p` and `r` rational). Since pi is
irrational, two values are the same number exactly when both parts are equal. -/
structure Val where
  /-- the rational part -/
  p : Rat
  /-- the coefficient of `DEG_PER_RAD`; 0 for a value not derived from an angle -/
  r : Rat
deriving DecidableEq, Repr

/-- The value 0. -/
def Val.zero : Val := ⟨0, 0⟩

/-- A rational as a value. -/
def Val.ofRat (q : Rat) : Val := ⟨q, 0⟩

/-- An integer as a value (43_aggregator.md R203: `rpm` and `soc_pct` as the real number equal to the integer). -/
def Val.ofInt (n : Int) : Val := ⟨n, 0⟩

/-- The exact sum (00_scope.md R17). -/
def Val.add (a b : Val) : Val := ⟨a.p + b.p, a.r + b.r⟩

/-- The exact quotient by a count (43_aggregator.md R206). -/
def Val.divNat (a : Val) (n : Nat) : Val := ⟨a.p / n, a.r / n⟩

end Sys2Proof
end

