-- ==== Sys2Proof/Config.lean ====
section
/-! DEFINITION. The telemetry register file's type and the configuration of the core (00_scope.md R10), a record of
read-only registers (10_state.md R35), with the constraints it must meet and the values that reset carries. -/

namespace Sys2Proof

/-- The gear register's values (10_state.md R24, 42_pgn_payloads.md R183). -/
inductive Gear where
  | neutral
  | drive
  | reverse
deriving DecidableEq, Repr

/-- The sixteen telemetry registers x0 to x15 (10_state.md R24). -/
structure Telemetry where
  /-- x0, knots -/
  stwKn : Val
  /-- x1, revolutions per minute -/
  rpm : Int
  /-- x2 -/
  gear : Gear
  /-- x3, volts -/
  battV : Val
  /-- x4, amperes -/
  battA : Val
  /-- x5, percent -/
  socPct : Int
  /-- x6, metres per second -/
  awsMs : Val
  /-- x7, degrees -/
  awaDeg : Val
  /-- x8, metres per second -/
  twsMs : Val
  /-- x9, degrees -/
  twaDeg : Val
  /-- x10, degrees -/
  headingDeg : Val
  /-- x11, the mode number 0 to 3 -/
  apMode : BitVec 2
  /-- x12 -/
  apEngaged : Bool
  /-- x13, degrees -/
  apSetpointDeg : Val
  /-- x14, degrees, signed -/
  rudderDeg : Val
  /-- x15, unit not given, written by no rule (10_state.md R27) -/
  xte : Val
deriving DecidableEq, Repr

/-- The telemetry registers a channel may log: all but `gear`, `ap_mode` and `ap_engaged`
(43_aggregator.md R203). A non-numeric register cannot be named (log 17). -/
inductive NumReg where
  | stwKn
  | rpm
  | battV
  | battA
  | socPct
  | awsMs
  | awaDeg
  | twsMs
  | twaDeg
  | headingDeg
  | apSetpointDeg
  | rudderDeg
  | xte
deriving DecidableEq, Repr

/-- One logged channel (00_scope.md R10, R12). -/
structure ChanCfg where
  /-- CH_NAME, sent to the sink -/
  name : String
  /-- CH_SRC, the register sampled -/
  src : NumReg
  /-- CAP, the slots of each of the channel's three rings -/
  cap : Nat
  /-- IVL, the minimum ticks between fine points -/
  ivl : Nat
deriving DecidableEq, Repr

/-- TX_EOL, the terminator the command encoder appends (00_scope.md R10). -/
inductive TxEol where
  | cr
  | lf
  | crlf
deriving DecidableEq, Repr

/-- AP_ENGAGED_OTHER, what an engaged byte outside 0 and 1 decodes to (00_scope.md R10, 42_pgn_payloads.md R189). -/
inductive EngagedOther where
  | setTrue
  | setFalse
  | unchanged
deriving DecidableEq, Repr

/-- The configuration: every parameter of 00_scope.md R10 that holds data (TICK is a unit and NUMERICS is the type
`Val`). Fixed for a run; each parameter is a read-only register (10_state.md R35). -/
structure Config where
  /-- LINE_CAP, the characters the line buffer holds -/
  lineCap : Nat
  /-- the logged channels; NCH is their number -/
  chans : List ChanCfg
  /-- N1, fine points per medium point -/
  n1 : Nat
  /-- N2, medium points per coarse point -/
  n2 : Nat
  /-- TX_SRC_ADDR -/
  txSrcAddr : BitVec 8
  /-- TX_PRIORITY -/
  txPriority : BitVec 3
  /-- TX_EOL -/
  txEol : TxEol
  /-- PGN_USE_EDP -/
  pgnUseEdp : Bool
  /-- WIND_REF_MASK -/
  windRefMask : BitVec 8
  /-- AP_ENGAGED_OTHER -/
  apEngagedOther : EngagedOther
  /-- TELEM_RESET; its `apSetpointDeg` is AP_SETPOINT_DEFAULT (10_state.md R36) -/
  telemReset : Telemetry
  /-- MODE_HEADING; no rule reads it (00_scope.md R10) -/
  modeHeading : BitVec 2
deriving DecidableEq, Repr

/-- The constraints of 00_scope.md R10 and 70_reset_and_hazards.md R283. -/
def Config.ok (c : Config) : Bool :=
  decide (26 ≤ c.lineCap) && c.chans.all (fun ch => decide (1 ≤ ch.cap)) && decide (1 ≤ c.n1) && decide (1 ≤ c.n2)

/-- The spec's default TELEM_RESET: every number 0, Neutral, not engaged (10_state.md R36). -/
def Telemetry.zeroed : Telemetry where
  stwKn := Val.zero
  rpm := 0
  gear := .neutral
  battV := Val.zero
  battA := Val.zero
  socPct := 0
  awsMs := Val.zero
  awaDeg := Val.zero
  twsMs := Val.zero
  twaDeg := Val.zero
  headingDeg := Val.zero
  apMode := 0
  apEngaged := false
  apSetpointDeg := Val.zero
  rudderDeg := Val.zero
  xte := Val.zero

/-- The configuration that `State.reset` carries: the spec's default where it gives one; each open parameter at the
value the spec's own test vectors use (95_test_vectors.md, conventions and V8.6). DESIGN CHOICE, unsafe (log 5): no
statement rests on these values, since every statement is about every configuration. -/
def Config.atReset : Config where
  lineCap := 26
  chans := []
  n1 := 1
  n2 := 1
  txSrcAddr := 0x23
  txPriority := 3
  txEol := .cr
  pgnUseEdp := false
  windRefMask := 0xFF
  apEngagedOther := .unchanged
  telemReset := Telemetry.zeroed
  modeHeading := 1

/-- A free value: whether the upper of two candidate floors of a number that holds pi is the exact one, asked only where
the model's bounds of pi cannot tell (Machine/Numerics.lean; log 7). It has no body, so nothing can be proved of it. -/
opaque Config.floorIsUpper (lo hi : Int) : Bool

end Sys2Proof
end

