-- ==== Sys2Proof/Syntax.lean ====
section
/-! DEFINITION. The instructions: one constructor per row of spec/opcode_table.json, in the table's order, and the
five kinds of word they are decoded from (30_encoding.md R90, R109). -/

namespace Sys2Proof

/-- A CAN frame as the parser hands it on (10_state.md R22). Only valid frames exist: a line that is not valid gives
no frame (40_frame_parser.md R139). -/
structure CanFrame where
  /-- the eight identifier digits verbatim -/
  id : CanId
  /-- the payload length, 0 to 8 -/
  len : Nat
  /-- the payload, of which the first `len` bytes are meaningful and the others zero -/
  data : Vector Byte 8
deriving DecidableEq, Repr

/-- The causes of a drop (60_exceptions.md R251). No state and no output depends on which one it is. -/
inductive Drop where
  /-- E_LEAD: wrong leading character -/
  | lead
  /-- E_COUNT: wrong digit count -/
  | count
  /-- E_HEX: a non-hex byte in an identifier, length or data position -/
  | hex
  /-- E_LEN: the length digit is a hex digit above 8 -/
  | len
  /-- E_OVF: a data byte arrives at a full line buffer -/
  | ovf
  /-- E_SHORT: a payload shorter than its decoder's minimum -/
  | short
deriving DecidableEq, Repr

/-- The operation ports in one presentation by the host (30_encoding.md R91). -/
structure PortIn where
  rst : Bool
  opValid : Bool
  op : BitVec 2
  rxData : Byte
  now : Nat
  cmdEngage : Bool
  cmdMode : BitVec 2
  cmdSetpoint : Val
deriving DecidableEq, Repr

/-- The instructions of the four levels of 30_encoding.md R90. -/
inductive Instr where
  /-- RESET, port (70_reset_and_hazards.md R280) -/
  | reset
  /-- RXBYTE, port (40_frame_parser.md R131) -/
  | rxbyte (b : Byte)
  /-- SAMPLE, port (43_aggregator.md R201) -/
  | sample (now : Nat)
  /-- CMD, port (44_command_encoder.md R230) -/
  | cmd (engage : Bool) (mode : BitVec 2) (setpoint : Val)
  /-- RSVD, port (60_exceptions.md R259) -/
  | rsvd
  /-- EOL_CR, byte class (40_frame_parser.md R132) -/
  | eolCr
  /-- EOL_LF, byte class (40_frame_parser.md R132) -/
  | eolLf
  /-- DATA, byte class (40_frame_parser.md R133, R134) -/
  | data (b : Byte)
  /-- TLINE0 to TLINE8, a valid line with its identifier and payload bytes (40_frame_parser.md R135) -/
  | tline0 (id : CanId)
  | tline1 (id : CanId) (d0 : Byte)
  | tline2 (id : CanId) (d0 d1 : Byte)
  | tline3 (id : CanId) (d0 d1 d2 : Byte)
  | tline4 (id : CanId) (d0 d1 d2 d3 : Byte)
  | tline5 (id : CanId) (d0 d1 d2 d3 d4 : Byte)
  | tline6 (id : CanId) (d0 d1 d2 d3 d4 d5 : Byte)
  | tline7 (id : CanId) (d0 d1 d2 d3 d4 d5 d6 : Byte)
  | tline8 (id : CanId) (d0 d1 d2 d3 d4 d5 d6 d7 : Byte)
  /-- water-referenced speed (42_pgn_payloads.md R181) -/
  | pgn128259 (f : CanFrame)
  /-- engine speed (R182) -/
  | pgn127488 (f : CanFrame)
  /-- transmission gear (R183) -/
  | pgn127493 (f : CanFrame)
  /-- battery status (R184) -/
  | pgn127508 (f : CanFrame)
  /-- state of charge (R185) -/
  | pgn127506 (f : CanFrame)
  /-- wind data (R186) -/
  | pgn130306 (f : CanFrame)
  /-- vessel heading (R187) -/
  | pgn127250 (f : CanFrame)
  /-- rudder (R188) -/
  | pgn127245 (f : CanFrame)
  /-- autopilot (R189) -/
  | pgn127237 (f : CanFrame)
  /-- every other PGN (R190) -/
  | ignore (f : CanFrame)
  /-- CMD_TX, the outbound line: priority, source address, mode, engaged flag and setpoint field
  (44_command_encoder.md R230 to R236) -/
  | cmdTx (prio : BitVec 3) (sa : Byte) (mode : BitVec 2) (engage : Bool) (w : BitVec 16)
deriving DecidableEq, Repr

/-- The ten selections of the dispatch on the PGN number: the nine decoders and IGNORE (41_pgn_decode.md R164). -/
inductive Decoder where
  | pgn128259
  | pgn127488
  | pgn127493
  | pgn127508
  | pgn127506
  | pgn130306
  | pgn127250
  | pgn127245
  | pgn127237
  | ignore
deriving DecidableEq, Repr

/-- What an instruction is decoded from, one kind per format of the opcode table (30_encoding.md R109); the LINE
format has an inbound and an outbound kind. -/
inductive Word where
  /-- PORT: the operation ports -/
  | port (p : PortIn)
  /-- BYTE: a received byte -/
  | byte (b : Byte)
  /-- LINE: the characters of a terminated line, without the terminator -/
  | line (chars : List Byte)
  /-- LINE, outbound: the characters of a command line, without the terminator -/
  | tx (chars : List Byte)
  /-- CANID: a frame -/
  | can (f : CanFrame)
deriving DecidableEq, Repr

/-- Why a word is no instruction. -/
inductive Reject where
  /-- no operation is presented: `op_valid = 0` and `rst = 0` (30_encoding.md R91) -/
  | idle
  /-- a line outside the grammar, with the cause (30_encoding.md R100) -/
  | badLine (d : Drop)
  /-- an outbound text that is no command line -/
  | notCommand
deriving DecidableEq, Repr

end Sys2Proof
end

