-- ==== Sys2Proof/WellFormed.lean ====
section
/-! DEFINITION. Which instruction terms are well formed: those some word of the table's encodings stands for. -/

namespace Sys2Proof

/-- A frame the parser can hand on: at most 8 bytes, zero beyond its length (10_state.md R22). -/
def CanFrame.wf (f : CanFrame) : Bool :=
  decide (f.len ≤ 8) && decide (∀ i : Fin 8, f.len ≤ i.val → f.data[i] = 0)

/-- The mask of the PGN map, with bit 25 when PGN_USE_EDP (30_encoding.md R103, R109). -/
def canMask (edp : Bool) : CanId := if edp then 0x03FFFF00 else 0x01FFFF00

/-- The nine match values of the PGN map (30_encoding.md R103). -/
def canMatches : List CanId :=
  [0x01F50300, 0x01F20000, 0x01F20500, 0x01F21400, 0x01F21200, 0x01FD0200, 0x01F11200, 0x01F10D00, 0x01F10500]

/-- The frame is well formed and its identifier matches a row of the PGN map. -/
def CanFrame.matchesRow (edp : Bool) (m : CanId) (f : CanFrame) : Bool :=
  f.wf && decide (f.id &&& canMask edp = m)

/-- An instruction is well formed when its operands are ones its row's encoding can carry; `edp` is PGN_USE_EDP. -/
def Instr.wf (edp : Bool) : Instr → Bool
  | .reset => true
  | .rxbyte _ => true
  | .sample _ => true
  | .cmd _ _ _ => true
  | .rsvd => true
  | .eolCr => true
  | .eolLf => true
  | .data b => decide (b ≠ 0x0D) && decide (b ≠ 0x0A)
  | .tline0 _ => true
  | .tline1 _ _ => true
  | .tline2 _ _ _ => true
  | .tline3 _ _ _ _ => true
  | .tline4 _ _ _ _ _ => true
  | .tline5 _ _ _ _ _ _ => true
  | .tline6 _ _ _ _ _ _ _ => true
  | .tline7 _ _ _ _ _ _ _ _ => true
  | .tline8 _ _ _ _ _ _ _ _ _ => true
  | .pgn128259 f => f.matchesRow edp 0x01F50300
  | .pgn127488 f => f.matchesRow edp 0x01F20000
  | .pgn127493 f => f.matchesRow edp 0x01F20500
  | .pgn127508 f => f.matchesRow edp 0x01F21400
  | .pgn127506 f => f.matchesRow edp 0x01F21200
  | .pgn130306 f => f.matchesRow edp 0x01FD0200
  | .pgn127250 f => f.matchesRow edp 0x01F11200
  | .pgn127245 f => f.matchesRow edp 0x01F10D00
  | .pgn127237 f => f.matchesRow edp 0x01F10500
  | .ignore f => f.wf && !(canMatches.contains (f.id &&& canMask edp))
  | .cmdTx _ _ _ _ w => decide (w.toNat ≤ 62832)

end Sys2Proof
end

