-- ==== Sys2Proof/Decode.lean ====
section
/-! DEFINITION. The decoder of the four levels (30_encoding.md), total, rejecting by name; then the encoder, written
from the same tables; then the host's reading of an opcode-table word. -/

namespace Sys2Proof

/-- The character `T` (00_scope.md R18). -/
def charT : Byte := 0x54

/-- The value of a hexadecimal digit in either case, none for any other byte (30_encoding.md R93). -/
def hexDigit (b : Byte) : Option (BitVec 4) :=
  if 0x30 ≤ b.toNat ∧ b.toNat ≤ 0x39 then some (BitVec.ofNat 4 (b.toNat - 0x30))
  else if 0x41 ≤ b.toNat ∧ b.toNat ≤ 0x46 then some (BitVec.ofNat 4 (b.toNat - 0x37))
  else if 0x61 ≤ b.toNat ∧ b.toNat ≤ 0x66 then some (BitVec.ofNat 4 (b.toNat - 0x57))
  else none

/-- Digit pairs as bytes, the first digit of a pair the high nibble (20_memory.md R64); none where a character is no
hex digit or the last pair is incomplete. -/
def hexBytes : List Byte → Option (List Byte)
  | [] => some []
  | [_] => none
  | h :: l :: rest =>
    match hexDigit h, hexDigit l, hexBytes rest with
    | some x, some y, some bs => some ((x ++ y) :: bs)
    | _, _, _ => none

/-- The identifier from its four bytes, the first most significant (20_memory.md R63, 30_encoding.md R97). -/
def idOfBytes (bs : List Byte) : CanId :=
  bs.foldl (fun acc b => acc <<< 8 ||| b.zeroExtend 32) 0

/-- A payload padded with zeros to 8 bytes (10_state.md R22, 30_encoding.md R99). -/
def pad8 (bs : List Byte) : Vector Byte 8 :=
  Vector.ofFn fun i => bs.getD i.val 0

/-- The frame of an identifier and its payload bytes. -/
def frameOf (id : CanId) (bs : List Byte) : CanFrame := ⟨id, bs.length, pad8 bs⟩

/-- The line parser (40_frame_parser.md R135), its checks in that rule's order. -/
def parseLine (chars : List Byte) : Except Drop CanFrame :=
  match chars with
  | [] => .error .count
  | c :: rest =>
    if c ≠ charT then .error .lead
    else if chars.length < 10 then .error .count
    else
      match hexBytes (rest.take 8), hexDigit (rest.getD 8 0) with
      | some idBytes, some n =>
        if 8 < n.toNat then .error .len
        else if chars.length ≠ 10 + 2 * n.toNat then .error .count
        else
          match hexBytes (rest.drop 9) with
          | some ds => .ok (frameOf (idOfBytes idBytes) ds)
          | none => .error .hex
      | _, _ => .error .hex

/-- The row of the LINE format that a frame's line is, by its length digit (30_encoding.md R96, R109). -/
def tlineOf (f : CanFrame) : Instr :=
  match f.len with
  | 0 => .tline0 f.id
  | 1 => .tline1 f.id f.data[0]
  | 2 => .tline2 f.id f.data[0] f.data[1]
  | 3 => .tline3 f.id f.data[0] f.data[1] f.data[2]
  | 4 => .tline4 f.id f.data[0] f.data[1] f.data[2] f.data[3]
  | 5 => .tline5 f.id f.data[0] f.data[1] f.data[2] f.data[3] f.data[4]
  | 6 => .tline6 f.id f.data[0] f.data[1] f.data[2] f.data[3] f.data[4] f.data[5]
  | 7 => .tline7 f.id f.data[0] f.data[1] f.data[2] f.data[3] f.data[4] f.data[5] f.data[6]
  | _ => .tline8 f.id f.data[0] f.data[1] f.data[2] f.data[3] f.data[4] f.data[5] f.data[6] f.data[7]

/-- The LINE level, inbound: a terminated line is one of the nine lines or is rejected (30_encoding.md R94 to R100). -/
def decodeLine (chars : List Byte) : Except Reject Instr :=
  match parseLine chars with
  | .ok f => .ok (tlineOf f)
  | .error d => .error (.badLine d)

/-- The BYTE level (30_encoding.md R92). -/
def decodeByte (b : Byte) : Instr :=
  if b = 0x0D then .eolCr else if b = 0x0A then .eolLf else .data b

/-- The PORT level: `rst` overrides, then `op` counts when `op_valid` (30_encoding.md R91). -/
def decodePort (p : PortIn) : Except Reject Instr :=
  if p.rst then .ok .reset
  else if p.opValid then
    if p.op = 0 then .ok (.rxbyte p.rxData)
    else if p.op = 1 then .ok (.sample p.now)
    else if p.op = 2 then .ok (.cmd p.cmdEngage p.cmdMode p.cmdSetpoint)
    else .ok .rsvd
  else .error .idle

/-- The PGN number of an identifier (41_pgn_decode.md R162): `PF = id[23:16]`, `PS = id[15:8]`, the data page
`id[24]` as bit 16, and `id[25]` as bit 17 when PGN_USE_EDP; PS counts only when `PF >= 240`. -/
def pgnOfId (edp : Bool) (id : CanId) : Nat :=
  let pf := (id.extractLsb' 16 8).toNat
  let ps := (id.extractLsb' 8 8).toNat
  let hi := if edp then (id.extractLsb' 24 2).toNat else (id.extractLsb' 24 1).toNat
  if pf < 240 then hi * 0x10000 + pf * 0x100 else hi * 0x10000 + pf * 0x100 + ps

/-- The dispatch on the PGN number (41_pgn_decode.md R160, R164). -/
def Decoder.ofPgn (pgn : Nat) : Decoder :=
  if pgn = 128259 then .pgn128259
  else if pgn = 127488 then .pgn127488
  else if pgn = 127493 then .pgn127493
  else if pgn = 127508 then .pgn127508
  else if pgn = 127506 then .pgn127506
  else if pgn = 130306 then .pgn130306
  else if pgn = 127250 then .pgn127250
  else if pgn = 127245 then .pgn127245
  else if pgn = 127237 then .pgn127237
  else .ignore

/-- The instruction a selection stands for, with its frame. -/
def Decoder.instr (d : Decoder) (f : CanFrame) : Instr :=
  match d with
  | .pgn128259 => .pgn128259 f
  | .pgn127488 => .pgn127488 f
  | .pgn127493 => .pgn127493 f
  | .pgn127508 => .pgn127508 f
  | .pgn127506 => .pgn127506 f
  | .pgn130306 => .pgn130306 f
  | .pgn127250 => .pgn127250 f
  | .pgn127245 => .pgn127245 f
  | .pgn127237 => .pgn127237 f
  | .ignore => .ignore f

/-- The CANID level: total, every frame selects one of the ten (41_pgn_decode.md R164). -/
def decodeCan (edp : Bool) (f : CanFrame) : Instr :=
  (Decoder.ofPgn (pgnOfId edp f.id)).instr f

/-- The outbound LINE row CMD_TX: a length-8 line whose identifier is PGN 127237's with bits 31:29 and 25 zero, whose
mode is 0 to 3, whose engaged byte is 0 or 1, whose setpoint field is one the encoder can send, and whose last four
bytes are zero (44_command_encoder.md R230 to R236). -/
def decodeTx (chars : List Byte) : Except Reject Instr :=
  match parseLine chars with
  | .error _ => .error .notCommand
  | .ok f =>
    let w : BitVec 16 := f.data[3] ++ f.data[2]
    if f.len = 8 ∧ f.id &&& 0xE3FFFF00 = 0x01F10500 ∧ f.data[0].toNat ≤ 3 ∧ f.data[1].toNat ≤ 1 ∧ w.toNat ≤ 62832 ∧
        f.data[4] = 0 ∧ f.data[5] = 0 ∧ f.data[6] = 0 ∧ f.data[7] = 0 then
      .ok (.cmdTx (f.id.extractLsb' 26 3) (f.id.extractLsb' 0 8) (f.data[0].extractLsb' 0 2) (f.data[1] == 1) w)
    else .error .notCommand

/-- The decoder: total on every word; `edp` is PGN_USE_EDP, which the CANID level alone reads. -/
def decode (edp : Bool) : Word → Except Reject Instr
  | .port p => decodePort p
  | .byte b => .ok (decodeByte b)
  | .line chars => decodeLine chars
  | .tx chars => decodeTx chars
  | .can f => .ok (decodeCan edp f)

/-! The encoder. -/

/-- The hexadecimal character of a digit, upper case above 9 (44_command_encoder.md R236). -/
def hexChar (n : BitVec 4) : Byte :=
  if n.toNat < 10 then BitVec.ofNat 8 (0x30 + n.toNat) else BitVec.ofNat 8 (0x37 + n.toNat)

/-- The two hexadecimal characters of a byte, high nibble first. -/
def hexOfByte (b : Byte) : List Byte := [hexChar (b.extractLsb' 4 4), hexChar (b.extractLsb' 0 4)]

/-- The hexadecimal characters of a list of bytes. -/
def hexOfBytes : List Byte → List Byte
  | [] => []
  | b :: bs => hexOfByte b ++ hexOfBytes bs

/-- The four bytes of an identifier, most significant first. -/
def bytesOfId (id : CanId) : List Byte :=
  [id.extractLsb' 24 8, id.extractLsb' 16 8, id.extractLsb' 8 8, id.extractLsb' 0 8]

/-- The text of a line without its terminator (30_encoding.md R95, 44_command_encoder.md R236). -/
def lineText (id : CanId) (ds : List Byte) : List Byte :=
  charT :: (hexOfBytes (bytesOfId id) ++ hexChar (BitVec.ofNat 4 ds.length) :: hexOfBytes ds)

/-- The outbound identifier from the PGN constant 0x1F105 (44_command_encoder.md R230, R235). -/
def outboundId (prio : BitVec 3) (sa : Byte) : CanId :=
  prio.zeroExtend 32 <<< 26 ||| (0x1F105 : CanId) <<< 8 ||| sa.zeroExtend 32

/-- The command payload (44_command_encoder.md R234): mode, engaged byte, setpoint field low byte first, four zeros. -/
def commandPayload (mode : BitVec 2) (engage : Bool) (w : BitVec 16) : List Byte :=
  [mode.zeroExtend 8, if engage then 1 else 0, w.extractLsb' 0 8, w.extractLsb' 8 8, 0, 0, 0, 0]

/-- The ports with nothing presented and every operand 0. -/
def PortIn.quiet : PortIn where
  rst := false
  opValid := false
  op := 0
  rxData := 0
  now := 0
  cmdEngage := false
  cmdMode := 0
  cmdSetpoint := Val.zero

/-- The ports presenting RXBYTE with a byte (30_encoding.md R91). -/
def PortIn.rx (b : Byte) : PortIn := { PortIn.quiet with opValid := true, op := 0, rxData := b }

/-- The ports presenting SAMPLE. -/
def PortIn.sampleAt (t : Nat) : PortIn := { PortIn.quiet with opValid := true, op := 1, now := t }

/-- The ports presenting CMD. -/
def PortIn.command (engage : Bool) (mode : BitVec 2) (setpoint : Val) : PortIn :=
  { PortIn.quiet with opValid := true, op := 2, cmdEngage := engage, cmdMode := mode, cmdSetpoint := setpoint }

/-- The encoder: the word of an instruction, from the tables of 30_encoding.md. -/
def encode : Instr → Word
  | .reset => .port { PortIn.quiet with rst := true }
  | .rxbyte b => .port (PortIn.rx b)
  | .sample t => .port (PortIn.sampleAt t)
  | .cmd e m v => .port (PortIn.command e m v)
  | .rsvd => .port { PortIn.quiet with opValid := true, op := 3 }
  | .eolCr => .byte 0x0D
  | .eolLf => .byte 0x0A
  | .data b => .byte b
  | .tline0 id => .line (lineText id [])
  | .tline1 id d0 => .line (lineText id [d0])
  | .tline2 id d0 d1 => .line (lineText id [d0, d1])
  | .tline3 id d0 d1 d2 => .line (lineText id [d0, d1, d2])
  | .tline4 id d0 d1 d2 d3 => .line (lineText id [d0, d1, d2, d3])
  | .tline5 id d0 d1 d2 d3 d4 => .line (lineText id [d0, d1, d2, d3, d4])
  | .tline6 id d0 d1 d2 d3 d4 d5 => .line (lineText id [d0, d1, d2, d3, d4, d5])
  | .tline7 id d0 d1 d2 d3 d4 d5 d6 => .line (lineText id [d0, d1, d2, d3, d4, d5, d6])
  | .tline8 id d0 d1 d2 d3 d4 d5 d6 d7 => .line (lineText id [d0, d1, d2, d3, d4, d5, d6, d7])
  | .pgn128259 f => .can f
  | .pgn127488 f => .can f
  | .pgn127493 f => .can f
  | .pgn127508 f => .can f
  | .pgn127506 f => .can f
  | .pgn130306 f => .can f
  | .pgn127250 f => .can f
  | .pgn127245 f => .can f
  | .pgn127237 f => .can f
  | .ignore f => .can f
  | .cmdTx prio sa m e w => .tx (lineText (outboundId prio sa) (commandPayload m e w))

/-! The opcode table's words. -/

/-- The characters of a text held in a number, the first in bits 7:0. -/
def charsOf : Nat → Nat → List Byte
  | 0, _ => []
  | n + 1, w => BitVec.ofNat 8 w :: charsOf n (w / 256)

/-- The word that `nbits` bits `w` of the opcode table are. The table's formats overlap at 8 bits, where a PORT word
is 4 bits wide (30_encoding.md R109): there 4 to 15 but for the two terminators is read as a PORT word, anything else
as a received byte (log 1). 32 bits are an identifier, with an 8-byte payload of zeros; more are a line, outbound
when it is a command line. -/
def tableWord (nbits w : Nat) : Word :=
  if nbits ≤ 4 ∨ (nbits ≤ 8 ∧ 4 ≤ w ∧ w ≤ 15 ∧ w ≠ 0x0D ∧ w ≠ 0x0A) then
    .port { PortIn.quiet with rst := w.testBit 3, opValid := w.testBit 2, op := BitVec.ofNat 2 w }
  else if nbits ≤ 8 then .byte (BitVec.ofNat 8 w)
  else if nbits ≤ 32 then .can (frameOf (BitVec.ofNat 32 w) (List.replicate 8 0))
  else
    let chars := charsOf (nbits / 8) w
    match decodeTx chars with
    | .ok _ => .tx chars
    | .error _ => .line chars

/-- The instruction the decoder reads from a word of the opcode table (with PGN_USE_EDP false, as the table is
written: 30_encoding.md R109). -/
def decodeTableWord (nbits w : Nat) : Option Instr := (decode false (tableWord nbits w)).toOption

end Sys2Proof
end

