-- ==== Sys2Proof/Machine/State.lean ====
section
/-! DEFINITION. The state of the core as plain data (10_state.md), its outputs, its refusals, and the state after
RESET. -/

namespace Sys2Proof.Machine

/-- The line buffer's contents: (index, byte) pairs, indices strictly rising, no entry 0x00, which is what an unlisted
index reads as (10_state.md R36: an unwritten element holds no value and a model may fill it with any; log 8). -/
abbrev Memory := List Host.Cell

/-- The horizons 0, 1, 2 (00_scope.md R19). -/
inductive Horizon where
  | fine
  | medium
  | coarse
deriving DecidableEq, Repr

/-- One ring (10_state.md R31): a slot that no point was written to holds no value (R33, R36). -/
structure Series where
  /-- RING, CAP slots -/
  slots : List (Option Val)
  /-- the slot the next point goes to -/
  idx : Nat
  /-- whether the index has returned to 0 -/
  wrapped : Bool
deriving DecidableEq, Repr

/-- One accumulator (10_state.md R31). -/
structure Acc where
  /-- acc_sum -/
  sum : Val
  /-- acc_cnt -/
  cnt : Nat
deriving DecidableEq, Repr

/-- The aggregator state of one logged channel (10_state.md R30, R31). -/
structure Chan where
  /-- last_t, the clock reading of the last stored fine point -/
  lastT : Nat
  fine : Series
  medium : Series
  coarse : Series
  /-- the accumulator feeding the medium ring -/
  acc1 : Acc
  /-- the accumulator feeding the coarse ring -/
  acc2 : Acc
deriving DecidableEq, Repr

/-- The outputs of a step (00_scope.md R8). -/
inductive Output where
  /-- FRAME(id, len, data) (40_frame_parser.md R140) -/
  | frame (f : CanFrame)
  /-- ROW(channel, horizon, t, value) (43_aggregator.md R207) -/
  | row (name : String) (h : Horizon) (t : Nat) (v : Val)
  /-- REPORT(channel, horizon, t) (43_aggregator.md R211) -/
  | report (name : String) (h : Horizon) (t : Nat)
  /-- TX(bytes) (44_command_encoder.md R236) -/
  | tx (bytes : List Byte)
deriving DecidableEq, Repr

/-- The core has no fault: "There are no fatal errors in the core" (60_exceptions.md R250, R261). The type has no
constructor, so no step can stop with one (log 16). -/
inductive Fault where
deriving DecidableEq, Repr

/-- The reasons the model gives an input no meaning. -/
inductive Refusal where
  /-- an instruction with no meaning yet, raised by `exec` alone; safe, since nothing can be proved about it -/
  | notModelled (mnemonic : String)
  /-- operation code 3, raised by RSVD: the spec gives it no meaning (60_exceptions.md R259; log 11); safe -/
  | reservedOperation
  /-- a configuration outside its constraints, raised by `step` (93_implementation_defined.md U4; log 12); safe -/
  | badConfiguration
deriving DecidableEq, Repr

/-- The machine. The first five fields are the spec's (10_state.md R20, R35); the last three are the model's own: the
step's inputs and outputs as data (00_scope.md R8; log 2, log 3, log 4). -/
structure State where
  /-- the configuration, read-only registers (R35) -/
  cfg : Config
  /-- LB, the line buffer (R21) -/
  lb : Memory
  /-- wr, the line cursor (R21, R23) -/
  wr : Nat
  /-- TS, the telemetry registers x0 to x15 (R24) -/
  ts : Telemetry
  /-- AG, one entry per logged channel (R30, R31) -/
  ag : List Chan
  /-- the host's pending port inputs, oldest first (model's own) -/
  inp : List PortIn
  /-- the sink's answers to the rows to come, oldest first; past the end the sink accepts (model's own) -/
  sinkAns : List Bool
  /-- the output list of the step just made (model's own) -/
  out : List Output
deriving DecidableEq, Repr

/-- What executing an instruction answers. -/
abbrev Result := Host.Outcome State Fault Refusal

/-- An empty ring (10_state.md R36). -/
def Series.empty (cap : Nat) : Series := ⟨List.replicate cap none, 0, false⟩

/-- An empty accumulator (10_state.md R36). -/
def Acc.empty : Acc := ⟨Val.zero, 0⟩

/-- A channel right after RESET (10_state.md R36). -/
def Chan.fresh (c : ChanCfg) : Chan :=
  ⟨0, Series.empty c.cap, Series.empty c.cap, Series.empty c.cap, Acc.empty, Acc.empty⟩

/-- The state after RESET under a configuration (10_state.md R36), with no input pending. -/
def State.resetOf (c : Config) : State where
  cfg := c
  lb := []
  wr := 0
  ts := c.telemReset
  ag := c.chans.map Chan.fresh
  inp := []
  sinkAns := []
  out := []

/-- The machine right after reset (10_state.md R36, 70_reset_and_hazards.md R280, R282). -/
def State.reset : State := State.resetOf Config.atReset

end Sys2Proof.Machine
end

