-- ==== Sys2Proof/Machine/Ops.lean ====
section
/-! DEFINITION. The named operations: the line buffer, the register-file and output updates, the drop (the core's one
exception mechanism), the ring store with its cascade, and RESET's effect. -/

namespace Sys2Proof.Machine

/-! The line buffer's cells. -/

/-- The byte at an index; 0x00 where nothing is listed (log 8). -/
def Memory.read (m : Memory) (a : Nat) : Byte :=
  match m with
  | [] => 0
  | (x, y) :: rest => if x = a then y else Memory.read rest a

/-- The cells that list one byte: none for 0x00. -/
def Memory.entry (a : Nat) (b : Byte) : Memory := if b = 0 then [] else [(a, b)]

/-- Write one byte and keep the canonical form. -/
def Memory.write (m : Memory) (a : Nat) (b : Byte) : Memory :=
  match m with
  | [] => Memory.entry a b
  | (x, y) :: rest =>
    if a < x then Memory.entry a b ++ (x, y) :: rest
    else if a = x then Memory.entry a b ++ rest
    else (x, y) :: Memory.write rest a b

/-- Indices strictly rising from at least `lo`, and no byte 0x00. -/
def Memory.wfFrom (lo : Nat) : Memory → Bool
  | [] => true
  | (x, y) :: rest => decide (lo ≤ x) && decide (y ≠ 0) && Memory.wfFrom (x + 1) rest

/-- The canonical form: indices strictly rising, no entry 0x00. -/
def Memory.wf (m : Memory) : Bool := Memory.wfFrom 0 m

/-- The characters `LB[0] .. LB[n-1]` (10_state.md R21). -/
def Memory.chars (m : Memory) (n : Nat) : List Byte := (List.range n).map m.read

/-- Write characters from an index on. -/
def Memory.writeFrom (m : Memory) (a : Nat) : List Byte → Memory
  | [] => m
  | b :: bs => Memory.writeFrom (m.write a b) (a + 1) bs

/-! State updates. -/

/-- `wr <- n` (00_scope.md R15). -/
def State.setWr (s : State) (n : Nat) : State := { s with wr := n }

/-- `LB[i] <- b`. -/
def State.setLb (s : State) (i : Nat) (b : Byte) : State := { s with lb := s.lb.write i b }

/-- Write the telemetry registers. -/
def State.setTs (s : State) (t : Telemetry) : State := { s with ts := t }

/-- `emit`: append one output to the step's list (00_scope.md R16). -/
def State.emit (s : State) (o : Output) : State := { s with out := s.out ++ [o] }

/-- The drop: the core's one form of exception (60_exceptions.md R250, R251, R261). It saves nothing, changes no mode,
transfers no control and records no cause; the step completes with the state as the raising rule left it. There is no
return from it, since nothing was entered (R262). -/
def State.drop (s : State) (_cause : Drop) : Result := .next s

/-! The aggregator. -/

/-- The rows and reports of a SAMPLE in progress, and the sink's answers left. -/
structure SinkIO where
  out : List Output
  ans : List Bool
deriving DecidableEq, Repr

/-- Send one row to the sink; a failed append is reported right after it (43_aggregator.md R207, R211). Past the end
of the listed answers the sink accepts (log 4). -/
def SinkIO.sendRow (io : SinkIO) (name : String) (h : Horizon) (t : Nat) (v : Val) : SinkIO :=
  match io.ans with
  | [] => ⟨io.out ++ [.row name h t v], []⟩
  | ok :: rest => ⟨io.out ++ (if ok then [.row name h t v] else [.row name h t v, .report name h t]), rest⟩

/-- The circular write (43_aggregator.md R204). -/
def Series.push (r : Series) (cap : Nat) (v : Val) : Series :=
  let next := (r.idx + 1) % cap
  ⟨r.slots.set r.idx (some v), next, r.wrapped || next == 0⟩

/-- Add a point to an accumulator of `n`; when it is the n-th, empty it and give the mean (43_aggregator.md R205,
R206). -/
def Acc.feed (a : Acc) (n : Nat) (v : Val) : Acc × Option Val :=
  if a.cnt + 1 = n then (Acc.empty, some ((a.sum.add v).divNat n)) else (⟨a.sum.add v, a.cnt + 1⟩, none)

/-- The configuration's part that a store of one channel reads. -/
structure StoreEnv where
  chan : ChanCfg
  n1 : Nat
  n2 : Nat
  now : Nat
deriving DecidableEq, Repr

/-- `store(c, 2, v, now)`: the coarse ring feeds nothing (43_aggregator.md R201, R205). -/
def storeCoarse (e : StoreEnv) (v : Val) (x : Chan × SinkIO) : Chan × SinkIO :=
  ({ x.1 with coarse := x.1.coarse.push e.chan.cap v }, x.2.sendRow e.chan.name .coarse e.now v)

/-- `store(c, 1, v, now)`: the medium ring, which feeds the coarse one. -/
def storeMedium (e : StoreEnv) (v : Val) (x : Chan × SinkIO) : Chan × SinkIO :=
  let ch : Chan := { x.1 with medium := x.1.medium.push e.chan.cap v, acc2 := (x.1.acc2.feed e.n2 v).1 }
  let io := x.2.sendRow e.chan.name .medium e.now v
  match (x.1.acc2.feed e.n2 v).2 with
  | none => (ch, io)
  | some m => storeCoarse e m (ch, io)

/-- `store(c, 0, v, now)`: the fine ring, which feeds the medium one. -/
def storeFine (e : StoreEnv) (v : Val) (x : Chan × SinkIO) : Chan × SinkIO :=
  let ch : Chan := { x.1 with fine := x.1.fine.push e.chan.cap v, acc1 := (x.1.acc1.feed e.n1 v).1 }
  let io := x.2.sendRow e.chan.name .fine e.now v
  match (x.1.acc1.feed e.n1 v).2 with
  | none => (ch, io)
  | some m => storeMedium e m (ch, io)

/-! RESET. -/

/-- RESET's effect (70_reset_and_hazards.md R280, R281; 10_state.md R36): the whole core, no output; the configuration
stays, and so do the host's pending inputs and the sink's answers, which are outside the core. -/
def State.resetCore (s : State) : State :=
  { State.resetOf s.cfg with inp := s.inp, sinkAns := s.sinkAns, out := s.out }

end Sys2Proof.Machine
end

