-- ==== Sys2Proof/Machine/Operands.lean ====
section
/-! DEFINITION. The operand forms of a payload and their conversions: the field reads, the sentinels, the scales, the
angles (41_pgn_decode.md R167 to R169), and the register a channel samples (43_aggregator.md R203). -/

namespace Sys2Proof.Machine

/-- `u8(i)`, the byte `d[i]` (41_pgn_decode.md R167). -/
def u8 (f : CanFrame) (i : Nat) : Byte := f.data[i]?.getD 0

/-- `bits10(i)`, the low two bits of `d[i]`. -/
def bits10 (f : CanFrame) (i : Nat) : BitVec 2 := (u8 f i).extractLsb' 0 2

/-- `raw16(i)`, little-endian (20_memory.md R65). -/
def raw16 (f : CanFrame) (i : Nat) : BitVec 16 := u8 f (i + 1) ++ u8 f i

/-- A signed field, absent when its raw bits are 0x7FFF (41_pgn_decode.md R168). -/
def signedField (raw : BitVec 16) : Option Int := if raw = 0x7FFF then none else some raw.toInt

/-- The RPM field, absent when its raw bits are 0xFFFF. -/
def unsignedField (raw : BitVec 16) : Option Nat := if raw = 0xFFFF then none else some raw.toNat

/-- The SOC byte, absent when 0xFF. -/
def byteField (b : Byte) : Option Nat := if b = 0xFF then none else some b.toNat

/-- A count scaled by a decimal factor. -/
def scaled (k : Rat) (n : Int) : Val := Val.ofRat (n * k)

/-- `deg(r)`: wire units of 0.0001 radian in degrees, `r / 10000` times DEG_PER_RAD (41_pgn_decode.md R169). -/
def deg (r : Int) : Val := ⟨0, (r : Rat) / 10000⟩

/-- `norm360(deg(r))`: 360 added once to a negative angle; `deg(r) < 0` exactly when `r < 0` (R169). -/
def degNorm (r : Int) : Val := if r < 0 then (deg r).add (Val.ofInt 360) else deg r

/-- RPM: a quarter of the count, rounded to nearest, halves up: `floor((r + 2) / 4)` (42_pgn_payloads.md R182). -/
def quarterRounded (r : Nat) : Int := ((r + 2) / 4 : Nat)

/-- The gear mapping (42_pgn_payloads.md R183). -/
def gearOf (g : BitVec 2) : Gear := if g = 1 then .drive else if g = 2 then .reverse else .neutral

/-- The mode number, absent outside 0 to 3 (42_pgn_payloads.md R189). -/
def modeField (m : Byte) : Option (BitVec 2) := if m.toNat ≤ 3 then some (m.extractLsb' 0 2) else none

/-- The engaged byte (42_pgn_payloads.md R189, AP_ENGAGED_OTHER). -/
def engagedField (other : EngagedOther) (e : Byte) : Option Bool :=
  if e = 0 then some false
  else if e = 1 then some true
  else match other with
    | .setTrue => some true
    | .setFalse => some false
    | .unchanged => none

/-- The present value of a loggable register as a physical value (43_aggregator.md R203). -/
def numeric (t : Telemetry) : NumReg → Val
  | .stwKn => t.stwKn
  | .rpm => Val.ofInt t.rpm
  | .battV => t.battV
  | .battA => t.battA
  | .socPct => Val.ofInt t.socPct
  | .awsMs => t.awsMs
  | .awaDeg => t.awaDeg
  | .twsMs => t.twsMs
  | .twaDeg => t.twaDeg
  | .headingDeg => t.headingDeg
  | .apSetpointDeg => t.apSetpointDeg
  | .rudderDeg => t.rudderDeg
  | .xte => t.xte

end Sys2Proof.Machine
end

