-- ==== Sys2Proof/Machine/Flags.lean ====
section
/-! DEFINITION. The conditions an operation tests. The core has no condition codes (10_state.md R29); what it tests
are the seeding condition, the time gate and the clock's order. -/

namespace Sys2Proof.Machine

/-- The seeding condition, on the values before the frame (42_pgn_payloads.md R187): not engaged, and the setpoint
equal to AP_SETPOINT_DEFAULT = TELEM_RESET.ap_setpoint_deg. -/
def seeds (cfg : Config) (t : Telemetry) : Bool :=
  !t.apEngaged && decide (t.apSetpointDeg = cfg.telemReset.apSetpointDeg)

/-- The time gate (43_aggregator.md R202): at least IVL ticks since the last stored point. SAMPLE asks it only where
`lastT` does not lie after `now`. -/
def gateOpen (ivl lastT now : Nat) : Bool := decide (ivl ≤ now - lastT)

/-- The clock has gone backwards: some channel's last point lies after `now`, the check that R201 makes before anything
is written. -/
def clockWentBack (now : Nat) (ag : List Chan) : Bool := ag.any fun ch => decide (now < ch.lastT)

end Sys2Proof.Machine
end

