-- ==== Sys2Proof/Machine/Numerics.lean ====
section
/-! DEFINITION. The command encoder's arithmetic on exact values (44_command_encoder.md R231 to R233): floors of
numbers in which pi occurs, decided from rational bounds of pi that are refined until both ends agree (log 7). -/

namespace Sys2Proof.Machine

/-- The first `n` terms of the series of arctan(1/m): `1/((2k+1) m^(2k+1))` with alternating signs. -/
def arctanInv (m : Nat) : Nat → Rat
  | 0 => 0
  | k + 1 =>
    let term : Rat := 1 / (((2 * k + 1) * m ^ (2 * k + 1) : Nat) : Rat)
    if k % 2 = 0 then arctanInv m k + term else arctanInv m k - term

/-- pi cut to 20 decimals: a lower bound. -/
def piLow : Rat := 314159265358979323846 / 100000000000000000000

/-- One unit of the 20th decimal above: an upper bound. -/
def piHigh : Rat := 314159265358979323847 / 100000000000000000000

/-- A number moved into the 20-decimal bounds of pi. -/
def nearPi (q : Rat) : Rat := max piLow (min piHigh q)

/-- Bounds of pi of level `n`: 20 decimals, narrowed from level 1 on by Machin's
`pi = 16 arctan(1/5) - 4 arctan(1/239)` cut after `8 * 2^n` pairs of terms. -/
def piBounds (n : Nat) : Rat × Rat :=
  match n with
  | 0 => (piLow, piHigh)
  | n + 1 =>
    let t := 8 * 2 ^ (n + 1)
    (nearPi (16 * arctanInv 5 (2 * t) - 4 * arctanInv 239 (2 * t + 1)),
      nearPi (16 * arctanInv 5 (2 * t + 1) - 4 * arctanInv 239 (2 * t)))

/-- The floor of `f pi` for a monotone or antitone `f`: the first level from `n` on, of `fuel` more, whose two bounds
give one floor. Where even the last level's floors differ the exact floor is one of the two, and which one is left free
(DESIGN CHOICE, safe; no setpoint that leads there is known: log 7). -/
def floorAtPi (f : Rat → Rat) (n : Nat) (fuel : Nat) : Int :=
  let lo := (f (piBounds n).1).floor
  let hi := (f (piBounds n).2).floor
  if lo = hi then lo
  else
    match fuel with
    | 0 => if Config.floorIsUpper lo hi then hi else lo
    | fuel + 1 => floorAtPi f (n + 1) fuel

/-- The levels to try for a value: the number of bits of its four integers bounds how close `f pi` can lie to an
integer (log 7). -/
def refinements (v : Val) : Nat :=
  Nat.log2 (Nat.log2 (v.p.num.natAbs + 1) + Nat.log2 v.p.den + Nat.log2 (v.r.num.natAbs + 1) + Nat.log2 v.r.den + 1) + 8

/-- `floor(x / 360)` of a value in degrees: `p/360 + r/(2 pi)`. -/
def turns (v : Val) : Int := floorAtPi (fun x => v.p / 360 + v.r / (2 * x)) 0 (refinements v)

/-- `mod360(x) = x - 360 * floor(x / 360)` (00_scope.md R17, 44_command_encoder.md R231). -/
def mod360 (v : Val) : Val := v.add (Val.ofInt (-360 * turns v))

/-- `round_half_up(n * (pi / 180) * 10000)` (44_command_encoder.md R232); for `n = p + r * 180/pi` the product is
`p * pi * 500/9 + 10000 * r`. -/
def wireUnits (n : Val) : Int := floorAtPi (fun x => n.p * (500 / 9) * x + 10000 * n.r + 1 / 2) 0 (refinements n)

/-- The 16 bits sent: the low bits of the wire units of the normalised setpoint (44_command_encoder.md R233). -/
def setpointField (v : Val) : BitVec 16 := BitVec.ofInt 16 (wireUnits (mod360 v))

end Sys2Proof.Machine
end

