-- ==== Sys2Proof/Machine/Pgn.lean ====
section
/-! DEFINITION. The CANID family: the nine PGN decoders and IGNORE (42_pgn_payloads.md), each with the length check,
the optional fields and the one commit of 41_pgn_decode.md R165, and the dispatch on the PGN (R160). -/

namespace Sys2Proof.Machine

/-- PGN128259, water-referenced speed (42_pgn_payloads.md R181): counts of 0.01 m/s in knots. -/
def execPgn128259 (f : CanFrame) (s : State) : Result :=
  if f.len < 3 then s.drop .short
  else
    let v := (signedField (raw16 f 1)).map (scaled (1943844 / 100000000))
    .next (s.setTs { s.ts with stwKn := v.getD s.ts.stwKn })

/-- PGN127488, engine speed (R182). -/
def execPgn127488 (f : CanFrame) (s : State) : Result :=
  if f.len < 4 then s.drop .short
  else
    let v := (unsignedField (raw16 f 2)).map quarterRounded
    .next (s.setTs { s.ts with rpm := v.getD s.ts.rpm })

/-- PGN127493, transmission gear (R183). -/
def execPgn127493 (f : CanFrame) (s : State) : Result :=
  if f.len < 2 then s.drop .short
  else .next (s.setTs { s.ts with gear := gearOf (bits10 f 1) })

/-- PGN127508, battery status (R184). -/
def execPgn127508 (f : CanFrame) (s : State) : Result :=
  if f.len < 5 then s.drop .short
  else
    let v := (signedField (raw16 f 1)).map (scaled (1 / 100))
    let a := (signedField (raw16 f 3)).map (scaled (1 / 10))
    .next (s.setTs { s.ts with battV := v.getD s.ts.battV, battA := a.getD s.ts.battA })

/-- PGN127506, state of charge (R185). -/
def execPgn127506 (f : CanFrame) (s : State) : Result :=
  if f.len < 2 then s.drop .short
  else
    let v := (byteField (u8 f 1)).map Int.ofNat
    .next (s.setTs { s.ts with socPct := v.getD s.ts.socPct })

/-- PGN130306, wind data (R186): reference 1 is the apparent pair, 2 or 3 the true pair, anything else neither. -/
def execPgn130306 (f : CanFrame) (s : State) : Result :=
  if f.len < 6 then s.drop .short
  else
    let spd := (signedField (raw16 f 1)).map (scaled (1 / 100))
    let ang := (signedField (raw16 f 3)).map degNorm
    let ref := u8 f 5 &&& s.cfg.windRefMask
    if ref = 1 then .next (s.setTs { s.ts with awsMs := spd.getD s.ts.awsMs, awaDeg := ang.getD s.ts.awaDeg })
    else if ref = 2 ∨ ref = 3 then
      .next (s.setTs { s.ts with twsMs := spd.getD s.ts.twsMs, twaDeg := ang.getD s.ts.twaDeg })
    else .next s

/-- PGN127250, vessel heading, with the seeding of the setpoint (R187). -/
def execPgn127250 (f : CanFrame) (s : State) : Result :=
  if f.len < 3 then s.drop .short
  else
    match signedField (raw16 f 1) with
    | none => .next s
    | some r =>
      .next (s.setTs { s.ts with
        headingDeg := degNorm r
        apSetpointDeg := if seeds s.cfg s.ts then degNorm r else s.ts.apSetpointDeg })

/-- PGN127245, rudder, not normalised (R188). -/
def execPgn127245 (f : CanFrame) (s : State) : Result :=
  if f.len < 2 then s.drop .short
  else
    let v := (signedField (raw16 f 0)).map deg
    .next (s.setTs { s.ts with rudderDeg := v.getD s.ts.rudderDeg })

/-- PGN127237, autopilot (R189). -/
def execPgn127237 (f : CanFrame) (s : State) : Result :=
  if f.len < 4 then s.drop .short
  else
    let mode := modeField (u8 f 0)
    let eng := engagedField s.cfg.apEngagedOther (u8 f 1)
    let sp := (signedField (raw16 f 2)).map degNorm
    .next (s.setTs { s.ts with
      apMode := mode.getD s.ts.apMode
      apEngaged := eng.getD s.ts.apEngaged
      apSetpointDeg := sp.getD s.ts.apSetpointDeg })

/-- IGNORE: any other PGN; nothing is committed and the length is not checked (R190). -/
def execIgnore (_f : CanFrame) (s : State) : Result := .next s

/-- The meaning a selection stands for. -/
def runDecoder (d : Decoder) (f : CanFrame) (s : State) : Result :=
  match d with
  | .pgn128259 => execPgn128259 f s
  | .pgn127488 => execPgn127488 f s
  | .pgn127493 => execPgn127493 f s
  | .pgn127508 => execPgn127508 f s
  | .pgn127506 => execPgn127506 f s
  | .pgn130306 => execPgn130306 f s
  | .pgn127250 => execPgn127250 f s
  | .pgn127245 => execPgn127245 f s
  | .pgn127237 => execPgn127237 f s
  | .ignore => execIgnore f s

/-- `decode(f)`: the identifier's PGN selects the decoder (41_pgn_decode.md R160). -/
def runFrame (f : CanFrame) (s : State) : Result :=
  runDecoder (Decoder.ofPgn (pgnOfId s.cfg.pgnUseEdp f.id)) f s

end Sys2Proof.Machine
end

