-- ==== Sys2Proof/Machine/Lines.lean ====
section
/-! DEFINITION. The LINE family: the nine inbound lines, each giving its frame, and the outbound command line. -/

namespace Sys2Proof.Machine

/-- A valid frame leaves the parser: the FRAME output first, then the frame to the codec, in the same step
(40_frame_parser.md R139, R140). -/
def acceptFrame (f : CanFrame) (s : State) : Result := runFrame f (s.emit (.frame f))

/-- TLINE0: a valid line of 10 characters (40_frame_parser.md R135, 30_encoding.md R96). -/
def execTline0 (id : CanId) (s : State) : Result := acceptFrame (frameOf id []) s

/-- TLINE1: 12 characters. -/
def execTline1 (id : CanId) (d0 : Byte) (s : State) : Result := acceptFrame (frameOf id [d0]) s

/-- TLINE2: 14 characters. -/
def execTline2 (id : CanId) (d0 d1 : Byte) (s : State) : Result := acceptFrame (frameOf id [d0, d1]) s

/-- TLINE3: 16 characters. -/
def execTline3 (id : CanId) (d0 d1 d2 : Byte) (s : State) : Result := acceptFrame (frameOf id [d0, d1, d2]) s

/-- TLINE4: 18 characters. -/
def execTline4 (id : CanId) (d0 d1 d2 d3 : Byte) (s : State) : Result :=
  acceptFrame (frameOf id [d0, d1, d2, d3]) s

/-- TLINE5: 20 characters. -/
def execTline5 (id : CanId) (d0 d1 d2 d3 d4 : Byte) (s : State) : Result :=
  acceptFrame (frameOf id [d0, d1, d2, d3, d4]) s

/-- TLINE6: 22 characters. -/
def execTline6 (id : CanId) (d0 d1 d2 d3 d4 d5 : Byte) (s : State) : Result :=
  acceptFrame (frameOf id [d0, d1, d2, d3, d4, d5]) s

/-- TLINE7: 24 characters. -/
def execTline7 (id : CanId) (d0 d1 d2 d3 d4 d5 d6 : Byte) (s : State) : Result :=
  acceptFrame (frameOf id [d0, d1, d2, d3, d4, d5, d6]) s

/-- TLINE8: 26 characters. -/
def execTline8 (id : CanId) (d0 d1 d2 d3 d4 d5 d6 d7 : Byte) (s : State) : Result :=
  acceptFrame (frameOf id [d0, d1, d2, d3, d4, d5, d6, d7]) s

/-- The line of a parsed frame runs as the row of its length (30_encoding.md R96). -/
def runLine (f : CanFrame) (s : State) : Result :=
  match f.len with
  | 0 => execTline0 f.id s
  | 1 => execTline1 f.id f.data[0] s
  | 2 => execTline2 f.id f.data[0] f.data[1] s
  | 3 => execTline3 f.id f.data[0] f.data[1] f.data[2] s
  | 4 => execTline4 f.id f.data[0] f.data[1] f.data[2] f.data[3] s
  | 5 => execTline5 f.id f.data[0] f.data[1] f.data[2] f.data[3] f.data[4] s
  | 6 => execTline6 f.id f.data[0] f.data[1] f.data[2] f.data[3] f.data[4] f.data[5] s
  | 7 => execTline7 f.id f.data[0] f.data[1] f.data[2] f.data[3] f.data[4] f.data[5] f.data[6] s
  | _ => execTline8 f.id f.data[0] f.data[1] f.data[2] f.data[3] f.data[4] f.data[5] f.data[6] f.data[7] s

/-- TX_EOL as bytes (00_scope.md R10). -/
def eolBytes : TxEol → List Byte
  | .cr => [0x0D]
  | .lf => [0x0A]
  | .crlf => [0x0D, 0x0A]

/-- CMD_TX: one TX output, the command line and its terminator; no state is written (44_command_encoder.md R234 to
R236, R238). -/
def execCmdTx (prio : BitVec 3) (sa : Byte) (mode : BitVec 2) (engage : Bool) (w : BitVec 16) (s : State) : Result :=
  .next (s.emit (.tx (lineText (outboundId prio sa) (commandPayload mode engage w) ++ eolBytes s.cfg.txEol)))

end Sys2Proof.Machine
end

