-- ==== Sys2Proof/Machine/Bytes.lean ====
section
/-! DEFINITION. The BYTE family: the two terminators and the data byte (40_frame_parser.md R131 to R134). -/

namespace Sys2Proof.Machine

/-- A terminator: with an empty buffer nothing happens; otherwise the cursor returns to 0 and the line is parsed, a
line outside the grammar being dropped (40_frame_parser.md R131, R132). -/
def endOfLine (s : State) : Result :=
  if s.wr = 0 then .next s
  else
    match parseLine (s.lb.chars s.wr) with
    | .ok f => runLine f (s.setWr 0)
    | .error d => (s.setWr 0).drop d

/-- EOL_CR. -/
def execEolCr (s : State) : Result := endOfLine s

/-- EOL_LF; CR and LF are equivalent (R132). -/
def execEolLf (s : State) : Result := endOfLine s

/-- DATA: stored with room (R133); at a full buffer the line and the byte are discarded (R134). -/
def execData (b : Byte) (s : State) : Result :=
  if s.wr < s.cfg.lineCap then .next ((s.setLb s.wr b).setWr (s.wr + 1))
  else (s.setWr 0).drop .ovf

end Sys2Proof.Machine
end

