-- ==== Sys2Proof/Machine/Ports.lean ====
section
/-! DEFINITION. The PORT family: RESET, RXBYTE, SAMPLE, CMD, RSVD (30_encoding.md R91). -/

namespace Sys2Proof.Machine

/-- RESET (70_reset_and_hazards.md R280). -/
def execReset (s : State) : Result := .next s.resetCore

/-- RXBYTE: the byte's class selects the meaning (40_frame_parser.md R131, 30_encoding.md R92). -/
def execRxbyte (b : Byte) (s : State) : Result :=
  if b = 0x0D then execEolCr s
  else if b = 0x0A then execEolLf s
  else execData b s

/-- One channel's part of a SAMPLE (43_aggregator.md R201): gate, value, `last_t`, store. -/
def sampleChan (cfg : Config) (t : Telemetry) (now : Nat) (c : ChanCfg) (x : Chan × SinkIO) : Chan × SinkIO :=
  if gateOpen c.ivl x.1.lastT now then
    storeFine ⟨c, cfg.n1, cfg.n2, now⟩ (numeric t c.src) ({ x.1 with lastT := now }, x.2)
  else x

/-- The channels in index order (43_aggregator.md R209). -/
def sampleChans (cfg : Config) (t : Telemetry) (now : Nat) : List ChanCfg → List Chan → SinkIO → List Chan × SinkIO
  | c :: cs, ch :: chs, io =>
    let x := sampleChan cfg t now c (ch, io)
    let rest := sampleChans cfg t now cs chs x.2
    (x.1 :: rest.1, rest.2)
  | _, chs, io => (chs, io)

/-- SAMPLE (43_aggregator.md R201). When the clock has gone backwards for some channel the whole operation stores
nothing and sends nothing, the choice that R213 leaves a model which is total (DESIGN CHOICE, unsafe, log 10). -/
def execSample (now : Nat) (s : State) : Result :=
  if clockWentBack now s.ag then .next s
  else
    let x := sampleChans s.cfg s.ts now s.cfg.chans s.ag ⟨s.out, s.sinkAns⟩
    .next { s with ag := x.1, out := x.2.out, sinkAns := x.2.ans }

/-- CMD: the outbound line of the configured priority and source address and of the setpoint's 16-bit field
(44_command_encoder.md R230). -/
def execCmd (engage : Bool) (mode : BitVec 2) (setpoint : Val) (s : State) : Result :=
  execCmdTx s.cfg.txPriority s.cfg.txSrcAddr mode engage (setpointField setpoint) s

/-- RSVD: the spec gives operation code 3 no meaning and forbids a model to define one (60_exceptions.md R259,
95_test_vectors.md VB1.3; log 11). -/
def execRsvd (_s : State) : Result := .refused .reservedOperation

end Sys2Proof.Machine
end

