-- ==== Sys2Proof/Machine/Dispatch.lean ====
section
/-! DEFINITION. The dispatch: one arm per instruction, each a direct call of its meaning. -/

namespace Sys2Proof.Machine

/-- Execute one instruction. -/
def exec (i : Instr) (s : State) : Host.Outcome State Fault Refusal :=
  match i with
  | .reset => Sys2Proof.Machine.execReset s
  | .rxbyte b => Sys2Proof.Machine.execRxbyte b s
  | .sample now => Sys2Proof.Machine.execSample now s
  | .cmd engage mode setpoint => Sys2Proof.Machine.execCmd engage mode setpoint s
  | .rsvd => Sys2Proof.Machine.execRsvd s
  | .eolCr => Sys2Proof.Machine.execEolCr s
  | .eolLf => Sys2Proof.Machine.execEolLf s
  | .data b => Sys2Proof.Machine.execData b s
  | .tline0 id => Sys2Proof.Machine.execTline0 id s
  | .tline1 id d0 => Sys2Proof.Machine.execTline1 id d0 s
  | .tline2 id d0 d1 => Sys2Proof.Machine.execTline2 id d0 d1 s
  | .tline3 id d0 d1 d2 => Sys2Proof.Machine.execTline3 id d0 d1 d2 s
  | .tline4 id d0 d1 d2 d3 => Sys2Proof.Machine.execTline4 id d0 d1 d2 d3 s
  | .tline5 id d0 d1 d2 d3 d4 => Sys2Proof.Machine.execTline5 id d0 d1 d2 d3 d4 s
  | .tline6 id d0 d1 d2 d3 d4 d5 => Sys2Proof.Machine.execTline6 id d0 d1 d2 d3 d4 d5 s
  | .tline7 id d0 d1 d2 d3 d4 d5 d6 => Sys2Proof.Machine.execTline7 id d0 d1 d2 d3 d4 d5 d6 s
  | .tline8 id d0 d1 d2 d3 d4 d5 d6 d7 => Sys2Proof.Machine.execTline8 id d0 d1 d2 d3 d4 d5 d6 d7 s
  | .pgn128259 f => Sys2Proof.Machine.execPgn128259 f s
  | .pgn127488 f => Sys2Proof.Machine.execPgn127488 f s
  | .pgn127493 f => Sys2Proof.Machine.execPgn127493 f s
  | .pgn127508 f => Sys2Proof.Machine.execPgn127508 f s
  | .pgn127506 f => Sys2Proof.Machine.execPgn127506 f s
  | .pgn130306 f => Sys2Proof.Machine.execPgn130306 f s
  | .pgn127250 f => Sys2Proof.Machine.execPgn127250 f s
  | .pgn127245 f => Sys2Proof.Machine.execPgn127245 f s
  | .pgn127237 f => Sys2Proof.Machine.execPgn127237 f s
  | .ignore f => Sys2Proof.Machine.execIgnore f s
  | .cmdTx prio sa mode engage w => Sys2Proof.Machine.execCmdTx prio sa mode engage w s

end Sys2Proof.Machine
end

