-- ==== Sys2Proof/Machine/Step.lean ====
section
/-! DEFINITION. One step: take the oldest pending port input, decode it, execute it (00_scope.md R7, R8); and the
placing of an opcode-table word where the next step takes it. -/

namespace Sys2Proof.Machine

/-- The state in which the operation of the oldest input executes: that input is taken and the output list of this
step is empty. -/
def State.consume (s : State) : State := { s with inp := s.inp.tail, out := [] }

/-- One step. With no operation presented nothing happens (30_encoding.md R91). A configuration outside its
constraints is refused (93_implementation_defined.md U4; log 12). -/
def step (s : State) : Host.Outcome State Fault Refusal :=
  if s.cfg.ok then
    match s.inp with
    | [] => .next s.consume
    | p :: _ =>
      match decodePort p with
      | .ok i => exec i s.consume
      | .error _ => .next s.consume
  else .refused .badConfiguration

/-- The line buffer holding a line whose terminator is the next byte received. -/
def State.withLine (s : State) (chars : List Byte) : State :=
  { s with lb := Memory.writeFrom [] 0 chars, wr := chars.length, inp := PortIn.rx 0x0D :: s.inp }

/-- A setpoint that the encoder turns into a given field of at most 62832 wire units. -/
def setpointFor (w : BitVec 16) : Val := if w.toNat < 62832 then deg w.toNat else Val.ofRat (359999 / 1000)

/-- Place a word where the next step runs it: a PORT word at the ports; a BYTE as the byte RXBYTE receives; a LINE in
the line buffer with its terminator at the ports; a frame as its line; an outbound line as the CMD that sends it, under
the priority and source address it carries (log 19). -/
def State.place (s : State) : Word → State
  | .port p => { s with inp := p :: s.inp }
  | .byte b => { s with inp := PortIn.rx b :: s.inp }
  | .line chars => s.withLine chars
  | .can f => s.withLine (lineText f.id (f.data.toList.take f.len))
  | .tx chars =>
    match decodeTx chars with
    | .ok (.cmdTx prio sa m e w) =>
      { s with cfg := { s.cfg with txPriority := prio, txSrcAddr := sa }, inp := PortIn.command e m (setpointFor w) :: s.inp }
    | _ => s

/-- The word of the opcode table placed so that the next step runs its instruction. -/
def State.withFetchWord (s : State) (nbits w : Nat) : State := s.place (tableWord nbits w)

end Sys2Proof.Machine
end

