-- ==== Sys2Proof/Safety.lean ====
section
/-! DEFINITION. The terms in which claims about the core are made: the real number a value stands for, the invariants
of the state, the decoded ranges of the registers, and feeding a byte stream. Nothing here is read by the machine. -/

namespace Sys2Proof.Machine

/-- The real number a value stands for (00_scope.md R13, R17). -/
noncomputable def toReal (v : Val) : ℝ := (v.p : ℝ) + (v.r : ℝ) * (180 / Real.pi)

/-- A ring's invariant (10_state.md R31 to R33): CAP slots, the index below CAP, and a slot holds a point exactly when
the ring has wrapped or the slot lies below the index. -/
def Series.Inv (cap : Nat) (r : Series) : Prop :=
  r.slots.length = cap ∧ r.idx < cap ∧ ∀ i, i < cap → ((r.slots.getD i none).isSome ↔ r.wrapped = true ∨ i < r.idx)

/-- A channel's invariant (10_state.md R32). -/
def Chan.Inv (cfg : Config) (c : ChanCfg) (ch : Chan) : Prop :=
  ch.fine.Inv c.cap ∧ ch.medium.Inv c.cap ∧ ch.coarse.Inv c.cap ∧ ch.acc1.cnt < cfg.n1 ∧ ch.acc2.cnt < cfg.n2

/-- The state's invariant: a legal configuration (00_scope.md R10), the cursor within the buffer and the buffer within
its capacity and in canonical form (10_state.md R21), and every channel's invariant (R32). -/
def State.Inv (s : State) : Prop :=
  s.cfg.ok = true ∧ s.wr ≤ s.cfg.lineCap ∧ Memory.wf s.lb = true ∧ (∀ x ∈ s.lb, x.1 < s.cfg.lineCap) ∧
    List.Forall₂ (Chan.Inv s.cfg) s.cfg.chans s.ag

/-- The counts a signed field that is no sentinel can hold (41_pgn_decode.md R169). -/
def SignedCount (r : Int) : Prop := -32768 ≤ r ∧ r ≤ 32766

/-- A decoded angle in [0, 360): wire units `r`, with 360 added when negative (41_pgn_decode.md R169). -/
def IsAngle (v : Val) : Prop :=
  ∃ r : Int, SignedCount r ∧ v = ⟨if r < 0 then 360 else 0, (r : Rat) / 10000⟩

/-- A decoded count scaled by a factor. -/
def IsScaled (k : Rat) (v : Val) : Prop := ∃ r : Int, SignedCount r ∧ v = ⟨(r : Rat) * k, 0⟩

/-- Every register holds its reset value or a value decoded from a real measurement (10_state.md R24, R26, R27). -/
structure Telemetry.Legal (reset t : Telemetry) : Prop where
  stwKn : t.stwKn = reset.stwKn ∨ IsScaled (1943844 / 100000000) t.stwKn
  rpm : t.rpm = reset.rpm ∨ (0 ≤ t.rpm ∧ t.rpm ≤ 16384)
  battV : t.battV = reset.battV ∨ IsScaled (1 / 100) t.battV
  battA : t.battA = reset.battA ∨ IsScaled (1 / 10) t.battA
  socPct : t.socPct = reset.socPct ∨ (0 ≤ t.socPct ∧ t.socPct ≤ 254)
  awsMs : t.awsMs = reset.awsMs ∨ IsScaled (1 / 100) t.awsMs
  awaDeg : t.awaDeg = reset.awaDeg ∨ IsAngle t.awaDeg
  twsMs : t.twsMs = reset.twsMs ∨ IsScaled (1 / 100) t.twsMs
  twaDeg : t.twaDeg = reset.twaDeg ∨ IsAngle t.twaDeg
  headingDeg : t.headingDeg = reset.headingDeg ∨ IsAngle t.headingDeg
  apSetpointDeg : t.apSetpointDeg = reset.apSetpointDeg ∨ IsAngle t.apSetpointDeg
  rudderDeg : t.rudderDeg = reset.rudderDeg ∨ ∃ r : Int, SignedCount r ∧ t.rudderDeg = ⟨0, (r : Rat) / 10000⟩
  xte : t.xte = reset.xte

/-! The spec's own readings of a line and a payload, over mathematical integers (00_scope.md R14), for the claims to
compare the machine with. -/

/-- A hexadecimal digit (30_encoding.md R93). -/
def IsHex (b : Byte) : Prop :=
  (0x30 ≤ b.toNat ∧ b.toNat ≤ 0x39) ∨ (0x41 ≤ b.toNat ∧ b.toNat ≤ 0x46) ∨ (0x61 ≤ b.toNat ∧ b.toNat ≤ 0x66)

/-- The value of a hexadecimal digit (30_encoding.md R93). -/
def hexVal (b : Byte) : Nat :=
  if b.toNat ≤ 0x39 then b.toNat - 0x30 else if b.toNat ≤ 0x46 then b.toNat - 0x37 else b.toNat - 0x57

/-- A character with the lower-case hexadecimal letters in upper case. -/
def upcase (b : Byte) : Byte := if 0x61 ≤ b.toNat ∧ b.toNat ≤ 0x66 then BitVec.ofNat 8 (b.toNat - 0x20) else b

/-- The i-th character of a line. -/
def charAt (chars : List Byte) (i : Nat) : Byte := chars.getD i 0

/-- The i-th payload byte as a number. -/
def byteAt (f : CanFrame) (i : Nat) : Nat := (f.data[i]?.getD 0).toNat

/-- `d[i] | (d[i+1] << 8)` (20_memory.md R65). -/
def le16 (f : CanFrame) (i : Nat) : Nat := byteAt f i + 256 * byteAt f (i + 1)

/-- `s16(v)` (00_scope.md R14). -/
def s16 (v : Nat) : Int := if 32768 ≤ v then (v : Int) - 65536 else v

/-- The hexadecimal text of a number in `n` upper-case digits, most significant first. -/
def hexText : Nat → Nat → List Byte
  | 0, _ => []
  | n + 1, v => hexText n (v / 16) ++ [BitVec.ofNat 8 (if v % 16 < 10 then 0x30 + v % 16 else 0x37 + v % 16)]

/-- The minimum payload length of a selection (41_pgn_decode.md R166); IGNORE has none. -/
def minLen : Decoder → Nat
  | .pgn128259 => 3
  | .pgn127488 => 4
  | .pgn127493 => 2
  | .pgn127508 => 5
  | .pgn127506 => 2
  | .pgn130306 => 6
  | .pgn127250 => 3
  | .pgn127245 => 2
  | .pgn127237 => 4
  | .ignore => 0

/-- The rows one channel sends in a SAMPLE, in order fine, medium, coarse (43_aggregator.md R201, R205 to R208). -/
def rowsOf (cfg : Config) (t : Telemetry) (now : Nat) (c : ChanCfg) (ch : Chan) : List Output :=
  let v := numeric t c.src
  let m := (ch.acc1.sum.add v).divNat cfg.n1
  let k := (ch.acc2.sum.add m).divNat cfg.n2
  if now - ch.lastT < c.ivl then []
  else .row c.name .fine now v ::
    (if ch.acc1.cnt + 1 = cfg.n1 then
      .row c.name .medium now m :: (if ch.acc2.cnt + 1 = cfg.n2 then [.row c.name .coarse now k] else [])
    else [])

/-- Rows with the sink's answers: a failed row is followed by its report; past the end of the answers the sink accepts
(43_aggregator.md R211). -/
def withReports : List Output → List Bool → List Output
  | [], _ => []
  | o :: os, [] => o :: withReports os []
  | .row n h t v :: os, false :: as => .row n h t v :: .report n h t :: withReports os as
  | o :: os, _ :: as => o :: withReports os as

/-- A ring after one more point, from the one before (43_aggregator.md R204). -/
def Stored (cap : Nat) (v : Val) (r r' : Series) : Prop :=
  r'.slots = r.slots.set r.idx (some v) ∧ r'.idx = (r.idx + 1) % cap ∧
    (r'.wrapped = true ↔ r.wrapped = true ∨ (r.idx + 1) % cap = 0)

/-- The condition on the host under which SAMPLE has the spec's meaning: no channel's last point lies after `now`
(43_aggregator.md R201, R213). -/
def State.clockInOrder (s : State) (now : Nat) : Prop := ∀ ch ∈ s.ag, ch.lastT ≤ now

/-- The value of each loggable register as a channel samples it: a register of physical type as it is, `rpm` and
`soc_pct` as the real number equal to the integer (43_aggregator.md R203). -/
def Samples (t : Telemetry) (v : Val) : NumReg → Prop
  | .stwKn => v = t.stwKn
  | .rpm => toReal v = (t.rpm : ℝ)
  | .battV => v = t.battV
  | .battA => v = t.battA
  | .socPct => toReal v = (t.socPct : ℝ)
  | .awsMs => v = t.awsMs
  | .awaDeg => v = t.awaDeg
  | .twsMs => v = t.twsMs
  | .twaDeg => v = t.twaDeg
  | .headingDeg => v = t.headingDeg
  | .apSetpointDeg => v = t.apSetpointDeg
  | .rudderDeg => v = t.rudderDeg
  | .xte => v = t.xte

/-! Streams and rings. -/

/-- Feeding a byte stream is one RXBYTE per byte, in order (00_scope.md R9). -/
def feed : List Byte → State → Result
  | [], s => .next s
  | b :: bs, s =>
    match exec (.rxbyte b) s with
    | .next s' => feed bs s'
    | .fault r => .fault r
    | .refused r => .refused r

/-- Feeding a stream handed over in parts, part by part (40_frame_parser.md R141). -/
def feedParts : List (List Byte) → State → Result
  | [], s => .next s
  | part :: rest, s =>
    match feed part s with
    | .next s' => feedParts rest s'
    | .fault r => .fault r
    | .refused r => .refused r

/-- The terminated lines of a stream that follows the pending characters `acc`: a terminator ends a line, a data byte
at `cap` characters discards them and itself, the unterminated rest is no line (40_frame_parser.md R131 to R134, R142). -/
def linesOf (cap : Nat) : List Byte → List Byte → List (List Byte)
  | _, [] => []
  | acc, b :: bs =>
    if b = 0x0D ∨ b = 0x0A then acc :: linesOf cap [] bs
    else if acc.length < cap then linesOf cap (acc ++ [b]) bs
    else linesOf cap [] bs

/-- The frames of those of the lines that meet the grammar, in order (40_frame_parser.md R139). -/
def framesOfLines (lines : List (List Byte)) : List CanFrame := lines.filterMap fun l => (parseLine l).toOption

/-- `count(c, h)`, the number of points a ring holds (10_state.md R33). -/
def Series.count (cap : Nat) (r : Series) : Nat := if r.wrapped then cap else r.idx

/-- The points of a ring in age order, oldest first (10_state.md R33). -/
def Series.points (cap : Nat) (r : Series) : List (Option Val) :=
  if r.wrapped then (List.range cap).map fun k => r.slots.getD ((r.idx + k) % cap) none
  else r.slots.take r.idx

/-- The points of a ring after one more, from the ring before: it joins as the newest, and the oldest leaves when the
ring was full (10_state.md R33, 43_aggregator.md R204). -/
def Joined (cap : Nat) (v : Val) (r r' : Series) : Prop :=
  r'.points cap = (if r.count cap < cap then r.points cap else (r.points cap).tail) ++ [some v]

end Sys2Proof.Machine
end

