-- ==== Sys2Proof/Certificates/Slice0/Obligations.lean ====
section
/-! DEFINITION. The statements about the core, from the numbered rules of spec/. -/

open Sys2Proof Sys2Proof.Machine

/-! ## Encodings -/

/-- Decoding the encoding of any well-formed instruction gives it back, at every operand and both values of
PGN_USE_EDP. -/
def Obligations.DecodeOfEncode : Prop :=
  ∀ (edp : Bool) (i : Instr), i.wf edp = true → decode edp (encode i) = .ok i

/-- Whatever the decoder accepts is well formed (a frame word being a frame the parser can hand on). -/
def Obligations.DecodedIsWellFormed : Prop :=
  ∀ (edp : Bool) (w : Word) (i : Instr), (∀ f, w = .can f → f.wf = true) → decode edp w = .ok i → i.wf edp = true

/-- The encoding of a decoded line is the line itself with its hexadecimal letters in upper case. -/
def Obligations.EncodeOfDecodedLine : Prop :=
  ∀ (chars : List Byte) (i : Instr), decodeLine chars = .ok i → encode i = .line (chars.map upcase)

/-- Words written out from the encodings of the four formats decode to the instructions they stand for. -/
def Obligations.TableWordsDecode : Prop :=
  decode false (.port ⟨true, true, 0, 0x54, 0, false, 0, Val.zero⟩) = .ok .reset ∧
  decode false (.port ⟨false, true, 1, 0, 1000, false, 0, Val.zero⟩) = .ok (.sample 1000) ∧
  decode false (.byte 0x0A) = .ok .eolLf ∧
  decode false (.line [0x54, 0x30, 0x39, 0x46, 0x32, 0x30, 0x35, 0x32, 0x33, 0x32, 0x30, 0x30, 0x30, 0x61]) =
    .ok (.tline2 0x09F20523 0x00 0x0A) ∧
  decode false (.can (frameOf 0x09F20523 [0x00, 0x02])) = .ok (.pgn127493 (frameOf 0x09F20523 [0x00, 0x02]))

/-- A line gives a frame exactly when it meets the grammar. -/
def Obligations.LineGrammar : Prop :=
  ∀ chars : List Byte, (∃ f, parseLine chars = .ok f) ↔
    10 ≤ chars.length ∧ charAt chars 0 = 0x54 ∧ (∀ k, 1 ≤ k → k ≤ 9 → IsHex (charAt chars k)) ∧
      hexVal (charAt chars 9) ≤ 8 ∧ chars.length = 10 + 2 * hexVal (charAt chars 9) ∧
      ∀ k, 10 ≤ k → k < chars.length → IsHex (charAt chars k)

/-- The identifier of a parsed line: eight digits, the first most significant, neither masked nor range-checked. -/
def Obligations.LineIdentifier : Prop :=
  ∀ (chars : List Byte) (f : CanFrame), parseLine chars = .ok f →
    f.id.toNat = ((List.range 8).map fun i => hexVal (charAt chars (1 + i)) * 16 ^ (7 - i)).sum

/-- The length and the payload of a parsed line: digit pairs, high nibble first, zero beyond the length. -/
def Obligations.LinePayload : Prop :=
  ∀ (chars : List Byte) (f : CanFrame), parseLine chars = .ok f →
    f.len = hexVal (charAt chars 9) ∧
    (∀ k, k < f.len → byteAt f k = 16 * hexVal (charAt chars (10 + 2 * k)) + hexVal (charAt chars (11 + 2 * k))) ∧
    (∀ k, f.len ≤ k → k < 8 → byteAt f k = 0)

/-- Two lines that differ only in the case of their hexadecimal letters parse alike. -/
def Obligations.LineCaseIrrelevant : Prop :=
  ∀ a b : List Byte, a.map upcase = b.map upcase → parseLine a = parseLine b

/-- The PGN of an identifier in integer arithmetic: PF, PS, the data page, and the extended data page when used. -/
def Obligations.PgnOfIdentifier : Prop :=
  ∀ (edp : Bool) (id : CanId), pgnOfId edp id =
    (id.toNat / 2 ^ 24 % (if edp then 4 else 2)) * 2 ^ 16 + (id.toNat / 2 ^ 16 % 256) * 2 ^ 8 +
      (if id.toNat / 2 ^ 16 % 256 < 240 then 0 else id.toNat / 2 ^ 8 % 256)

/-- The PGN map: each of the nine decoders is selected by one mask and match on the identifier, and every identifier
that matches no row decodes to IGNORE. -/
def Obligations.PgnMap : Prop :=
  ∀ (edp : Bool) (f : CanFrame),
    (decodeCan edp f = .pgn128259 f ↔ f.id &&& canMask edp = 0x01F50300) ∧
    (decodeCan edp f = .pgn127488 f ↔ f.id &&& canMask edp = 0x01F20000) ∧
    (decodeCan edp f = .pgn127493 f ↔ f.id &&& canMask edp = 0x01F20500) ∧
    (decodeCan edp f = .pgn127508 f ↔ f.id &&& canMask edp = 0x01F21400) ∧
    (decodeCan edp f = .pgn127506 f ↔ f.id &&& canMask edp = 0x01F21200) ∧
    (decodeCan edp f = .pgn130306 f ↔ f.id &&& canMask edp = 0x01FD0200) ∧
    (decodeCan edp f = .pgn127250 f ↔ f.id &&& canMask edp = 0x01F11200) ∧
    (decodeCan edp f = .pgn127245 f ↔ f.id &&& canMask edp = 0x01F10D00) ∧
    (decodeCan edp f = .pgn127237 f ↔ f.id &&& canMask edp = 0x01F10500) ∧
    (decodeCan edp f = .ignore f ↔ f.id &&& canMask edp ∉ canMatches)

/-- Frames that differ only in identifier bits 31:26 and 7:0, and in bit 25 unless PGN_USE_EDP, are decoded to the same
effect. -/
def Obligations.SenderBitsIgnored : Prop :=
  ∀ (s : State) (f : CanFrame) (id' : CanId), f.id &&& canMask s.cfg.pgnUseEdp = id' &&& canMask s.cfg.pgnUseEdp →
    exec (decodeCan s.cfg.pgnUseEdp { f with id := id' }) s = exec (decodeCan s.cfg.pgnUseEdp f) s

/-! ## The step and the four levels -/

/-- One step executes the operation presented, and with nothing presented nothing happens (30_encoding.md R91). That the
pending operations are a list of which a step takes the oldest, and that the output list is a field that a step empties
first, is THE MODEL'S CHOICE (DESIGN CHOICE, log 2 and log 3). -/
def Obligations.StepRunsDecoded : Prop :=
  ∀ s : State, s.cfg.ok = true →
    (∀ p rest i, s.inp = p :: rest → decode s.cfg.pgnUseEdp (.port p) = .ok i →
      step s = exec i { s with inp := rest, out := [] }) ∧
    (∀ p rest, s.inp = p :: rest → p.rst = false → p.opValid = false → step s = .next { s with inp := rest, out := [] }) ∧
    (s.inp = [] → step s = .next { s with out := [] })

/-- Inside one step the levels run one another: RXBYTE its byte's class, a terminator the accumulated line, a line its
frame's decoder after the FRAME output, CMD the outbound line. -/
def Obligations.LevelsRunDecoded : Prop :=
  ∀ s : State,
    (∀ b i, decode s.cfg.pgnUseEdp (.byte b) = .ok i → exec (.rxbyte b) s = exec i s) ∧
    (∀ i, 0 < s.wr → decode s.cfg.pgnUseEdp (.line (s.lb.chars s.wr)) = .ok i →
      exec .eolCr s = exec i { s with wr := 0 } ∧ exec .eolLf s = exec i { s with wr := 0 }) ∧
    (∀ chars f i, parseLine chars = .ok f → decode s.cfg.pgnUseEdp (.line chars) = .ok i →
      exec i s = exec (decodeCan s.cfg.pgnUseEdp f) { s with out := s.out ++ [.frame f] }) ∧
    (∀ e m v, exec (.cmd e m v) s =
      exec (.cmdTx s.cfg.txPriority s.cfg.txSrcAddr m e (BitVec.ofInt 16 (wireUnits (mod360 v)))) s)

/-- Every operation completes in every state, but for the reserved one. That a SAMPLE whose clock reading lies before some
channel's last point completes too, where R201 and R213 would refuse it, is THE MODEL'S CHOICE (log 10). -/
def Obligations.EveryOperationCompletes : Prop :=
  ∀ (i : Instr) (s : State), i ≠ .rsvd → ∃ t, exec i s = .next t

/-- The reserved operation is refused in every state. -/
def Obligations.ReservedOperationRefused : Prop :=
  ∀ s : State, exec .rsvd s = .refused .reservedOperation

/-! ## Reset -/

/-- RESET returns the whole core to its reset values and emits nothing; the configuration survives. -/
def Obligations.ResetReturnsCore : Prop :=
  ∀ s : State, ∃ t, exec .reset s = .next t ∧
    t.wr = 0 ∧ t.ts = s.cfg.telemReset ∧ t.cfg = s.cfg ∧ t.out = s.out ∧ t.inp = s.inp ∧ t.sinkAns = s.sinkAns ∧
    t.ag.length = s.cfg.chans.length ∧
    ∀ (k : Nat) (c : ChanCfg), s.cfg.chans[k]? = some c → ∃ ch, t.ag[k]? = some ch ∧ ch.lastT = 0 ∧
      (∀ r, r = ch.fine ∨ r = ch.medium ∨ r = ch.coarse →
        r.idx = 0 ∧ r.wrapped = false ∧ r.slots = List.replicate c.cap none) ∧
      ch.acc1 = ⟨Val.zero, 0⟩ ∧ ch.acc2 = ⟨Val.zero, 0⟩

/-- The reset state of every legal configuration meets the state invariant and the register ranges. -/
def Obligations.ResetMeetsInvariants : Prop :=
  State.reset.Inv ∧ ∀ c : Config, c.ok = true →
    (State.resetOf c).Inv ∧ Telemetry.Legal (State.resetOf c).cfg.telemReset (State.resetOf c).ts

/-! ## The frame parser -/

/-- A terminator with an empty buffer does nothing. -/
def Obligations.EmptyLineIgnored : Prop :=
  ∀ s : State, s.wr = 0 →
    exec (.rxbyte 0x0D) s = .next s ∧ exec (.rxbyte 0x0A) s = .next s ∧ exec .eolCr s = .next s ∧ exec .eolLf s = .next s

/-- CR and LF have the same effect, and after any terminator the cursor is 0; only the cursor, the telemetry registers
and the outputs can change, and at most one output is added, a FRAME. -/
def Obligations.TerminatorEmptiesBuffer : Prop :=
  ∀ s : State, ∃ t, exec .eolCr s = .next t ∧ exec .eolLf s = .next t ∧ exec (.rxbyte 0x0D) s = .next t ∧
    exec (.rxbyte 0x0A) s = .next t ∧ t.wr = 0 ∧ t = { s with wr := 0, ts := t.ts, out := t.out } ∧
    (t.out = s.out ∨ ∃ f, t.out = s.out ++ [.frame f])

/-- A line outside the grammar is dropped: the cursor returns to 0 and nothing else changes. -/
def Obligations.MalformedLineDropped : Prop :=
  ∀ (s : State) (d : Drop), 0 < s.wr → parseLine (s.lb.chars s.wr) = .error d →
    exec .eolCr s = .next { s with wr := 0 } ∧ exec .eolLf s = .next { s with wr := 0 } ∧
    exec (.rxbyte 0x0D) s = .next { s with wr := 0 } ∧ exec (.rxbyte 0x0A) s = .next { s with wr := 0 }

/-- A data byte with room is stored verbatim at the cursor, which advances by one; every other buffer element and
everything else is unchanged. -/
def Obligations.DataByteStored : Prop :=
  ∀ (s : State) (b : Byte), b ≠ 0x0D → b ≠ 0x0A → s.wr < s.cfg.lineCap → s.lb.wf = true →
    ∃ t, exec (.data b) s = .next t ∧ exec (.rxbyte b) s = .next t ∧ t.wr = s.wr + 1 ∧ t.lb.read s.wr = b ∧
      (∀ a, a ≠ s.wr → t.lb.read a = s.lb.read a) ∧ t.lb.wf = true ∧ t = { s with wr := t.wr, lb := t.lb }

/-- A data byte at a full buffer discards the line and the byte: the cursor returns to 0 and nothing else changes. -/
def Obligations.OverflowDiscards : Prop :=
  ∀ (s : State) (b : Byte), b ≠ 0x0D → b ≠ 0x0A → s.wr = s.cfg.lineCap →
    exec (.data b) s = .next { s with wr := 0 } ∧ exec (.rxbyte b) s = .next { s with wr := 0 }

/-- The effect of a valid line: its FRAME output and its frame's decode, everything else unchanged. -/
def LineGives (i : Instr) (f : CanFrame) : Prop :=
  ∀ s : State, ∃ t, exec (decodeCan s.cfg.pgnUseEdp f) s = .next t ∧
    exec i s = .next { t with out := s.out ++ [.frame f] } ∧ t = { s with ts := t.ts }

/-- Each of the nine lines completes with its FRAME output and the decode of its frame. -/
def Obligations.ValidLineCompletes : Prop :=
  (∀ id, LineGives (.tline0 id) (frameOf id [])) ∧
  (∀ id a, LineGives (.tline1 id a) (frameOf id [a])) ∧
  (∀ id a b, LineGives (.tline2 id a b) (frameOf id [a, b])) ∧
  (∀ id a b c, LineGives (.tline3 id a b c) (frameOf id [a, b, c])) ∧
  (∀ id a b c d, LineGives (.tline4 id a b c d) (frameOf id [a, b, c, d])) ∧
  (∀ id a b c d e, LineGives (.tline5 id a b c d e) (frameOf id [a, b, c, d, e])) ∧
  (∀ id a b c d e g, LineGives (.tline6 id a b c d e g) (frameOf id [a, b, c, d, e, g])) ∧
  (∀ id a b c d e g h, LineGives (.tline7 id a b c d e g h) (frameOf id [a, b, c, d, e, g, h])) ∧
  (∀ id a b c d e g h k, LineGives (.tline8 id a b c d e g h k) (frameOf id [a, b, c, d, e, g, h, k]))

/-- Feeding a valid line and a terminator, byte by byte, from an empty buffer emits exactly its frame and leaves the
registers as that frame's decoder leaves them. -/
def Obligations.FedLineIsDecoded : Prop :=
  ∀ (s : State) (chars : List Byte) (f : CanFrame) (e : Byte), s.wr = 0 → s.lb.wf = true → 26 ≤ s.cfg.lineCap →
    parseLine chars = .ok f → e = 0x0D ∨ e = 0x0A →
    ∃ t t', feed (chars ++ [e]) s = .next t ∧ exec (decodeCan s.cfg.pgnUseEdp f) s = .next t' ∧
      t = { s with lb := t.lb, ts := t'.ts, out := s.out ++ [.frame f] }

/-- Chunking invariance: in whatever parts a stream is handed over, the frames emitted are exactly those of the valid
lines of the whole stream, a line pending from before being its first, and nothing else is emitted. -/
def Obligations.ChunkingInvariant : Prop :=
  ∀ (parts : List (List Byte)) (s : State), s.lb.wf = true →
    ∃ t, feedParts parts s = .next t ∧
      t.out = s.out ++ (framesOfLines (linesOf s.cfg.lineCap (s.lb.chars s.wr) parts.flatten)).map .frame

/-- Resynchronisation: from an empty buffer, the outputs of a stream depend on the stream and the configuration
alone, whatever preceded it. -/
def Obligations.FramesIndependentOfPast : Prop :=
  ∀ (bs : List Byte) (s s' : State), s.cfg = s'.cfg → s.wr = 0 → s'.wr = 0 → s.lb.wf = true → s'.lb.wf = true →
    ∃ t t' new, feed bs s = .next t ∧ feed bs s' = .next t' ∧ t.out = s.out ++ new ∧ t'.out = s'.out ++ new

/-! ## The PGN decoders -/

/-- PGN 128259: counts of 0.01 m/s times 1.943844, in knots; the sentinel 0x7FFF and a short frame leave the register. -/
def Obligations.SpeedDecoded : Prop :=
  ∀ (f : CanFrame) (s : State),
    (f.len < 3 → exec (.pgn128259 f) s = .next s) ∧
    (3 ≤ f.len → exec (.pgn128259 f) s = .next { s with ts := { s.ts with
      stwKn := if le16 f 1 = 0x7FFF then s.ts.stwKn else ⟨(s16 (le16 f 1) : Rat) * (1 / 100) * (1943844 / 1000000), 0⟩ } })

/-- PGN 127488: a quarter of the unsigned count, rounded half up; the sentinel 0xFFFF leaves the register. -/
def Obligations.RpmDecoded : Prop :=
  ∀ (f : CanFrame) (s : State),
    (f.len < 4 → exec (.pgn127488 f) s = .next s) ∧
    (4 ≤ f.len → exec (.pgn127488 f) s = .next { s with ts := { s.ts with
      rpm := if le16 f 2 = 0xFFFF then s.ts.rpm else ⌊(le16 f 2 : Rat) * (1 / 4) + 1 / 2⌋ } })

/-- PGN 127493: the low two bits of byte 1; 3 is Neutral; the register is always written. -/
def Obligations.GearDecoded : Prop :=
  ∀ (f : CanFrame) (s : State),
    (f.len < 2 → exec (.pgn127493 f) s = .next s) ∧
    (2 ≤ f.len → exec (.pgn127493 f) s = .next { s with ts := { s.ts with
      gear := if byteAt f 1 % 4 = 1 then .drive else if byteAt f 1 % 4 = 2 then .reverse else .neutral } })

/-- PGN 127508: voltage and current, each left alone by its own sentinel; a short frame updates neither. -/
def Obligations.BatteryDecoded : Prop :=
  ∀ (f : CanFrame) (s : State),
    (f.len < 5 → exec (.pgn127508 f) s = .next s) ∧
    (5 ≤ f.len → exec (.pgn127508 f) s = .next { s with ts := { s.ts with
      battV := if le16 f 1 = 0x7FFF then s.ts.battV else ⟨(s16 (le16 f 1) : Rat) * (1 / 100), 0⟩
      battA := if le16 f 3 = 0x7FFF then s.ts.battA else ⟨(s16 (le16 f 3) : Rat) * (1 / 10), 0⟩ } })

/-- PGN 127506: the raw percentage, not clamped; the sentinel 0xFF leaves the register. -/
def Obligations.SocDecoded : Prop :=
  ∀ (f : CanFrame) (s : State),
    (f.len < 2 → exec (.pgn127506 f) s = .next s) ∧
    (2 ≤ f.len → exec (.pgn127506 f) s = .next { s with ts := { s.ts with
      socPct := if byteAt f 1 = 0xFF then s.ts.socPct else (byteAt f 1 : Int) } })

/-- A decoded angle, normalised: `r * 0.0001` radian in degrees, 360 added to a negative one (41_pgn_decode.md R169). -/
def angleOf (r : Int) : Val := ⟨if r < 0 then 360 else 0, (r : Rat) * (1 / 10000)⟩

/-- The registers after a long enough wind frame (42_pgn_payloads.md R186). -/
def windAfter (f : CanFrame) (s : State) : Telemetry :=
  if byteAt f 5 &&& s.cfg.windRefMask.toNat = 1 then
    { s.ts with
      awsMs := if le16 f 1 = 0x7FFF then s.ts.awsMs else ⟨(s16 (le16 f 1) : Rat) * (1 / 100), 0⟩
      awaDeg := if le16 f 3 = 0x7FFF then s.ts.awaDeg else angleOf (s16 (le16 f 3)) }
  else if byteAt f 5 &&& s.cfg.windRefMask.toNat = 2 ∨ byteAt f 5 &&& s.cfg.windRefMask.toNat = 3 then
    { s.ts with
      twsMs := if le16 f 1 = 0x7FFF then s.ts.twsMs else ⟨(s16 (le16 f 1) : Rat) * (1 / 100), 0⟩
      twaDeg := if le16 f 3 = 0x7FFF then s.ts.twaDeg else angleOf (s16 (le16 f 3)) }
  else s.ts

/-- PGN 130306: the masked reference 1 updates the apparent pair only, 2 or 3 the true pair only, any other neither;
a sentinel leaves its own register. -/
def Obligations.WindDecoded : Prop :=
  ∀ (f : CanFrame) (s : State),
    (f.len < 6 → exec (.pgn130306 f) s = .next s) ∧
    (6 ≤ f.len → exec (.pgn130306 f) s = .next { s with ts := windAfter f s })

/-- PGN 127250: the heading, and the setpoint seeded with it when the autopilot is not engaged and the setpoint equals
its power-on default, both as they were before the frame. -/
def Obligations.HeadingDecodedAndSeeds : Prop :=
  ∀ (f : CanFrame) (s : State),
    (f.len < 3 → exec (.pgn127250 f) s = .next s) ∧
    (3 ≤ f.len → le16 f 1 = 0x7FFF → exec (.pgn127250 f) s = .next s) ∧
    (3 ≤ f.len → le16 f 1 ≠ 0x7FFF → exec (.pgn127250 f) s = .next { s with ts := { s.ts with
      headingDeg := angleOf (s16 (le16 f 1))
      apSetpointDeg := if s.ts.apEngaged = false ∧ s.ts.apSetpointDeg = s.cfg.telemReset.apSetpointDeg
        then angleOf (s16 (le16 f 1)) else s.ts.apSetpointDeg } })

/-- PGN 127245: the rudder angle, signed and not normalised. -/
def Obligations.RudderDecoded : Prop :=
  ∀ (f : CanFrame) (s : State),
    (f.len < 2 → exec (.pgn127245 f) s = .next s) ∧
    (2 ≤ f.len → exec (.pgn127245 f) s = .next { s with ts := { s.ts with
      rudderDeg := if le16 f 0 = 0x7FFF then s.ts.rudderDeg else ⟨0, (s16 (le16 f 0) : Rat) * (1 / 10000)⟩ } })

/-- PGN 127237: mode, engaged flag and setpoint, each on its own; a mode byte above 3 skips the mode alone; an engaged
byte above 1 follows AP_ENGAGED_OTHER. -/
def Obligations.AutopilotDecoded : Prop :=
  ∀ (f : CanFrame) (s : State),
    (f.len < 4 → exec (.pgn127237 f) s = .next s) ∧
    (4 ≤ f.len → exec (.pgn127237 f) s = .next { s with ts := { s.ts with
      apMode := if byteAt f 0 ≤ 3 then BitVec.ofNat 2 (byteAt f 0) else s.ts.apMode
      apEngaged := if byteAt f 1 = 0 then false else if byteAt f 1 = 1 then true else
        match s.cfg.apEngagedOther with
        | .setTrue => true
        | .setFalse => false
        | .unchanged => s.ts.apEngaged
      apSetpointDeg := if le16 f 2 = 0x7FFF then s.ts.apSetpointDeg else angleOf (s16 (le16 f 2)) } })

/-- Any other PGN commits nothing, whatever the payload's length. -/
def Obligations.UnknownPgnIgnored : Prop :=
  ∀ (f : CanFrame) (s : State), exec (.ignore f) s = .next s ∧
    (pgnOfId s.cfg.pgnUseEdp f.id ∉ [128259, 127488, 127493, 127508, 127506, 130306, 127250, 127245, 127237] →
      exec (decodeCan s.cfg.pgnUseEdp f) s = .next s)

/-- A frame shorter than its decoder's minimum updates nothing. -/
def Obligations.ShortFrameUpdatesNothing : Prop :=
  ∀ (f : CanFrame) (s : State), f.len < minLen (Decoder.ofPgn (pgnOfId s.cfg.pgnUseEdp f.id)) →
    exec (decodeCan s.cfg.pgnUseEdp f) s = .next s

/-! ## The aggregator -/

/-- SAMPLE, the clock being in order, writes the aggregator, the outputs and the sink's answers alone, and serves each
channel from that channel's own state: a channel whose gate is closed keeps its state. -/
def Obligations.ClosedGateKeepsChannel : Prop :=
  ∀ (s : State) (now : Nat), s.clockInOrder now → ∃ t, exec (.sample now) s = .next t ∧
    t = { s with ag := t.ag, out := t.out, sinkAns := t.sinkAns } ∧ t.ag.length = s.ag.length ∧
    ∀ (k : Nat) (c : ChanCfg) (ch : Chan), s.cfg.chans[k]? = some c → s.ag[k]? = some ch →
      now - ch.lastT < c.ivl → t.ag[k]? = some ch

/-- The clock being in order, a channel whose gate is open stores the register that its CH_SRC names in its fine ring,
`rpm` and `soc_pct` as the number equal to the integer, and takes `now` as its gate time. -/
def Obligations.OpenGateStoresFinePoint : Prop :=
  ∀ (s : State) (now k : Nat) (c : ChanCfg) (ch : Chan), s.clockInOrder now →
    s.cfg.chans[k]? = some c → s.ag[k]? = some ch → c.ivl ≤ now - ch.lastT →
    ∃ t ch' v, exec (.sample now) s = .next t ∧ t.ag[k]? = some ch' ∧ ch'.lastT = now ∧
      Stored c.cap v ch.fine ch'.fine ∧ v = numeric s.ts c.src ∧ Samples s.ts v c.src

/-- The cascade, the clock being in order: the stored point joins the medium accumulator; the N1-th gives their mean to
the medium ring and empties the accumulator; a medium point joins the coarse accumulator and the N2-th gives the coarse
ring its mean. -/
def Obligations.CascadeDownsamples : Prop :=
  ∀ (s : State) (now k : Nat) (c : ChanCfg) (ch : Chan) (v m : Val), s.clockInOrder now →
    s.cfg.chans[k]? = some c → s.ag[k]? = some ch → c.ivl ≤ now - ch.lastT →
    v = numeric s.ts c.src → m = (ch.acc1.sum.add v).divNat s.cfg.n1 →
    ∃ t ch', exec (.sample now) s = .next t ∧ t.ag[k]? = some ch' ∧
      (ch.acc1.cnt + 1 ≠ s.cfg.n1 →
        ch'.acc1 = ⟨ch.acc1.sum.add v, ch.acc1.cnt + 1⟩ ∧ ch'.medium = ch.medium ∧ ch'.coarse = ch.coarse ∧ ch'.acc2 = ch.acc2) ∧
      (ch.acc1.cnt + 1 = s.cfg.n1 →
        ch'.acc1 = ⟨Val.zero, 0⟩ ∧ Stored c.cap m ch.medium ch'.medium ∧
        (ch.acc2.cnt + 1 ≠ s.cfg.n2 →
          ch'.acc2 = ⟨ch.acc2.sum.add m, ch.acc2.cnt + 1⟩ ∧ ch'.coarse = ch.coarse) ∧
        (ch.acc2.cnt + 1 = s.cfg.n2 →
          ch'.acc2 = ⟨Val.zero, 0⟩ ∧ Stored c.cap ((ch.acc2.sum.add m).divNat s.cfg.n2) ch.coarse ch'.coarse))

/-- The clock being in order, a stored point joins its ring's points as the newest, the oldest leaving when the ring was
full, in the fine, the medium and the coarse ring alike; a ring that no point is stored in keeps its points. -/
def Obligations.RingHoldsMostRecent : Prop :=
  ∀ (s : State) (now k : Nat) (c : ChanCfg) (ch : Chan) (v m : Val), s.clockInOrder now →
    s.cfg.chans[k]? = some c → s.ag[k]? = some ch → c.ivl ≤ now - ch.lastT →
    ch.fine.Inv c.cap → ch.medium.Inv c.cap → ch.coarse.Inv c.cap →
    v = numeric s.ts c.src → m = (ch.acc1.sum.add v).divNat s.cfg.n1 →
    ∃ t ch', exec (.sample now) s = .next t ∧ t.ag[k]? = some ch' ∧ Joined c.cap v ch.fine ch'.fine ∧
      (if ch.acc1.cnt + 1 = s.cfg.n1 then
        Joined c.cap m ch.medium ch'.medium ∧
          (if ch.acc2.cnt + 1 = s.cfg.n2 then
            Joined c.cap ((ch.acc2.sum.add m).divNat s.cfg.n2) ch.coarse ch'.coarse
          else ch'.coarse.points c.cap = ch.coarse.points c.cap)
      else
        ch'.medium.points c.cap = ch.medium.points c.cap ∧ ch'.coarse.points c.cap = ch.coarse.points c.cap)

/-- The outputs of a SAMPLE, the clock being in order: the rows of the channels in index order, each failed one followed
by its report. That the sink's answers are a list used one per row, which accepts past its end, is THE MODEL'S CHOICE
(DESIGN CHOICE, log 4). -/
def Obligations.SampleRowsInOrder : Prop :=
  ∀ (s : State) (now : Nat), s.clockInOrder now → s.ag.length = s.cfg.chans.length →
    ∃ t, exec (.sample now) s = .next t ∧
      t.out = s.out ++ withReports ((List.zipWith (rowsOf s.cfg s.ts now) s.cfg.chans s.ag).flatten) s.sinkAns ∧
      t.sinkAns = s.sinkAns.drop ((List.zipWith (rowsOf s.cfg s.ts now) s.cfg.chans s.ag).flatten).length

/-- The sink's answers change no state of the core. That this covers a SAMPLE whose clock reading lies before some channel's
last point, which completes here where R201 and R213 would refuse it, is THE MODEL'S CHOICE (log 10). -/
def Obligations.SinkNeverTouchesState : Prop :=
  ∀ (s : State) (answers : List Bool) (i : Instr), i ≠ .rsvd →
    ∃ t t', exec i s = .next t ∧ exec i { s with sinkAns := answers } = .next t' ∧
      t' = { t with out := t'.out, sinkAns := t'.sinkAns }

/-- THE MODEL'S CHOICE (log 10, notes/assumptions/10.md), which R213 leaves to a total model: a SAMPLE whose clock reading
lies before some channel's last point stores nothing in any channel, sends nothing and changes nothing. -/
def Obligations.ClockBackStoresNothing : Prop :=
  ∀ (s : State) (now : Nat) (ch : Chan), ch ∈ s.ag → now < ch.lastT → exec (.sample now) s = .next s

/-! ## The command encoder -/

/-- The characters of the outbound line: `T`, the identifier of PGN 127237 with a priority and a source address, the
length digit 8, mode, engaged byte, the field low byte first, four zero bytes, in upper-case digits. -/
def commandText (prio sa mode w : Nat) (engage : Bool) : List Byte :=
  [0x54] ++ hexText 8 (prio * 2 ^ 26 + 0x01F10500 + sa) ++ [0x38] ++ hexText 2 mode ++
    hexText 2 (if engage then 1 else 0) ++ hexText 2 (w % 256) ++ hexText 2 (w / 256) ++ hexText 8 0

/-- CMD emits one TX, the command line of the configured priority and source address and of the wire units' low 16
bits, with the configured terminator, and writes no state; so does the outbound line itself. -/
def Obligations.CommandEmitsLine : Prop :=
  ∀ (s : State) (eol : List Byte),
    eol = (match s.cfg.txEol with | .cr => [0x0D] | .lf => [0x0A] | .crlf => [0x0D, 0x0A]) →
    (∀ (e : Bool) (m : BitVec 2) (v : Val), exec (.cmd e m v) s = .next { s with out := s.out ++
      [.tx (commandText s.cfg.txPriority.toNat s.cfg.txSrcAddr.toNat m.toNat (wireUnits (mod360 v) % 65536).toNat e ++ eol)] }) ∧
    (∀ (prio : BitVec 3) (sa : Byte) (e : Bool) (m : BitVec 2) (w : BitVec 16),
      exec (.cmdTx prio sa m e w) s = .next { s with out := s.out ++
        [.tx (commandText prio.toNat sa.toNat m.toNat w.toNat e ++ eol)] })

/-- Normalisation: for every value a whole number of turns is taken off, into [0, 360) up to `|r| / 10^18` degrees, which
is exact for a rational setpoint (the margin is that of log 7); a rational setpoint's normalisation is the mathematical
remainder; a register's angle, and a count of at most 62831 wire units, is in [0, 360) already and unchanged. -/
def Obligations.SetpointNormalised : Prop :=
  (∀ v : Val, ∃ k : Int, mod360 v = v.add (Val.ofInt (-360 * k)) ∧
    toReal (mod360 v) = toReal v - 360 * (k : ℝ) ∧
    -|(v.r : ℝ)| / 10 ^ 18 ≤ toReal (mod360 v) ∧ toReal (mod360 v) < 360 + |(v.r : ℝ)| / 10 ^ 18) ∧
  (∀ q : Rat, mod360 (Val.ofRat q) = Val.ofRat (q - 360 * ⌊q / 360⌋) ∧
    0 ≤ q - 360 * ⌊q / 360⌋ ∧ q - 360 * ⌊q / 360⌋ < 360) ∧
  (∀ v : Val, IsAngle v → mod360 v = v) ∧
  (∀ k : Nat, k ≤ 62831 → mod360 (deg k) = deg k)

/-- The wire units: for every value the exact conversion rounded half up, up to `|p| / 10^18` of a unit, which is exact
for a value with no rational part (the margin is that of log 7); from 0 to 62832 for a rational angle in [0, 360). A
count of at most 62831 wire units is sent as itself, and a register's angle that was read as a negative count `r` as
`62832 + r`. -/
def Obligations.WireUnitsRounded : Prop :=
  (∀ v : Val, (wireUnits v : ℝ) ≤ toReal v * (Real.pi / 180) * 10000 + 1 / 2 + |(v.p : ℝ)| / 10 ^ 18 ∧
    toReal v * (Real.pi / 180) * 10000 + 1 / 2 - |(v.p : ℝ)| / 10 ^ 18 < (wireUnits v : ℝ) + 1) ∧
  (∀ q : Rat, 0 ≤ q → q < 360 → 0 ≤ wireUnits (Val.ofRat q) ∧ wireUnits (Val.ofRat q) ≤ 62832) ∧
  (∀ k : Nat, k ≤ 62831 → wireUnits (mod360 (deg k)) = k) ∧
  (∀ r : Int, SignedCount r → r < 0 → wireUnits (mod360 (degNorm r)) = 62832 + r)

/-- The setpoints that the round trip is stated for: every rational one, and every one with both parts within 10^12. -/
def ModerateSetpoint (v : Val) : Prop := v.r = 0 ∨ (|v.p| ≤ 10 ^ 12 ∧ |v.r| ≤ 10 ^ 12)

/-- The command round trip: the bytes CMD sends, fed to a core with an empty buffer, give exactly one frame, of PGN
127237, the commanded mode and engaged flag, and the commanded setpoint within 0.00287 degrees, when the normalised
setpoint is below 187.73821: for every rational setpoint, and for every other whose parts are within 10^12, among them
every angle of a register (values: log 6; the bound on the parts keeps the margin of log 7 small). -/
def Obligations.CommandRoundTrip : Prop :=
  ∀ (s r : State) (e : Bool) (m : BitVec 2) (v : Val), ModerateSetpoint v →
    toReal (mod360 v) < 18773821 / 100000 → r.wr = 0 → r.lb.wf = true → 26 ≤ r.cfg.lineCap →
    ∃ t bytes u f, exec (.cmd e m v) s = .next t ∧ t.out = s.out ++ [.tx bytes] ∧
      feed bytes r = .next u ∧ u.out = r.out ++ [.frame f] ∧ pgnOfId r.cfg.pgnUseEdp f.id = 127237 ∧
      u.ts.apMode = m ∧ u.ts.apEngaged = e ∧
      |toReal u.ts.apSetpointDeg - toReal (mod360 v)| < 287 / 100000 ∧ u.wr = 0

/-- A commanded setpoint whose wire units are 32767 is sent as the sentinel: a receiver takes the mode and the engaged
flag from the frame and leaves its setpoint unchanged. -/
def Obligations.SentinelSetpointNotReceived : Prop :=
  ∀ (s r : State) (e : Bool) (m : BitVec 2) (v : Val), wireUnits (mod360 v) = 32767 →
    r.wr = 0 → r.lb.wf = true → 26 ≤ r.cfg.lineCap →
    ∃ t bytes u f, exec (.cmd e m v) s = .next t ∧ t.out = s.out ++ [.tx bytes] ∧ feed bytes r = .next u ∧
      u.out = r.out ++ [.frame f] ∧ pgnOfId r.cfg.pgnUseEdp f.id = 127237 ∧
      u.ts.apMode = m ∧ u.ts.apEngaged = e ∧ u.ts.apSetpointDeg = r.ts.apSetpointDeg

/-- A commanded setpoint of 32768 to 62832 wire units is received with the commanded mode and engaged flag, and as the
angle of the negative count `u - 65536`, 360 degrees added; for the setpoints of the round trip that is the normalised
setpoint less `65536 * 180 / (10000 pi) - 360`, about 15.4936 degrees, within 0.00287. -/
def Obligations.HighSetpointReceivedLow : Prop :=
  ∀ (s r : State) (e : Bool) (m : BitVec 2) (v : Val), 32768 ≤ wireUnits (mod360 v) → wireUnits (mod360 v) ≤ 62832 →
    r.wr = 0 → r.lb.wf = true → 26 ≤ r.cfg.lineCap →
    ∃ t bytes u f, exec (.cmd e m v) s = .next t ∧ t.out = s.out ++ [.tx bytes] ∧ feed bytes r = .next u ∧
      u.out = r.out ++ [.frame f] ∧ pgnOfId r.cfg.pgnUseEdp f.id = 127237 ∧
      u.ts.apMode = m ∧ u.ts.apEngaged = e ∧
      u.ts.apSetpointDeg = (deg (wireUnits (mod360 v) - 65536)).add (Val.ofInt 360) ∧
      (ModerateSetpoint v →
        |toReal u.ts.apSetpointDeg - (toReal (mod360 v) - (65536 * 180 / (10000 * Real.pi) - 360))| < 287 / 100000)

/-! ## Values -/

/-- Values are exact numbers: two values stand for the same real number only when they are equal, so that the seeding
rule's comparison of two registers is that of two numbers, and the sum and the quotient by a count, of which the means
are made, are those of the reals. -/
def Obligations.ValuesAreNumbers : Prop :=
  (∀ v w : Val, toReal v = toReal w → v = w) ∧ (∀ v w : Val, toReal (v.add w) = toReal v + toReal w) ∧
  ∀ (v : Val) (n : Nat), toReal (v.divNat n) = toReal v / n

/-- The angle conversion in real numbers: exact, negative exactly for a negative count, and in [0, 360) once
normalised, for every count a signed field can hold. -/
def Obligations.AngleConversion : Prop :=
  ∀ r : Int, SignedCount r →
    toReal (deg r) = (r : ℝ) * (1 / 10000) * (180 / Real.pi) ∧ (toReal (deg r) < 0 ↔ r < 0) ∧
    toReal (degNorm r) = (if toReal (deg r) < 0 then toReal (deg r) + 360 else toReal (deg r)) ∧
    0 ≤ toReal (degNorm r) ∧ toReal (degNorm r) < 360

/-- The rational bounds the encoder refines do enclose pi, at every level. The bounds are THE MODEL'S own device (DESIGN
CHOICE, log 7), which R232 and R17 do not mention; those two rules need floors of numbers that hold pi. -/
def Obligations.PiBoundsEnclose : Prop :=
  ∀ n : Nat, ((piBounds n).1 : ℝ) < Real.pi ∧ Real.pi < ((piBounds n).2 : ℝ)

/-! ## The whole machine -/

/-- Every step keeps the state invariant: the cursor and the buffer within capacity, the buffer's canonical form, every
ring index below its capacity, the slots that hold points, every accumulator below its count. -/
def Obligations.StepKeepsInvariant : Prop :=
  ∀ s t : State, s.Inv → step s = .next t → t.Inv

/-- Every step keeps the register ranges: each register holds its reset value or a value decoded from a real
measurement, never a sentinel, and xte its reset value. -/
def Obligations.StepKeepsLegalTelemetry : Prop :=
  ∀ s t : State, Telemetry.Legal s.cfg.telemReset s.ts → step s = .next t → Telemetry.Legal t.cfg.telemReset t.ts

/-- No step changes the configuration. -/
def Obligations.ConfigurationNeverChanges : Prop :=
  ∀ s t : State, step s = .next t → t.cfg = s.cfg

/-- A step answers a next state exactly when the configuration is legal (U4) and the reserved operation is not the one
presented: no other input and no other state stops the core. That a SAMPLE whose clock reading lies before some
channel's last point does not stop it, where R201, R213 and U2 would refuse, is THE MODEL'S CHOICE (log 10). -/
def Obligations.StepCompletesExactly : Prop :=
  ∀ s : State, (∃ t, step s = .next t) ↔
    s.cfg.ok = true ∧ ∀ p rest, s.inp = p :: rest → ¬(p.rst = false ∧ p.opValid = true ∧ p.op = 3)

/-- Only RESET and a received frame change a telemetry register, and only RESET and SAMPLE the aggregator. -/
def Obligations.WritersOfState : Prop :=
  ∀ (s t : State), step s = .next t →
    (t.ts ≠ s.ts → (∃ p rest, s.inp = p :: rest ∧ p.rst = true) ∨ ∃ f, t.out = [.frame f]) ∧
    (t.ag ≠ s.ag → ∃ p rest, s.inp = p :: rest ∧ (p.rst = true ∨ (p.opValid = true ∧ p.op = 1)))

/-- Short of a RESET a ring that has wrapped stays wrapped, and no channel's gate time goes back. -/
def Obligations.WrappedStays : Prop :=
  ∀ (s t : State) (k : Nat) (ch : Chan), step s = .next t → (∀ p rest, s.inp = p :: rest → p.rst = false) →
    s.ag[k]? = some ch → ∃ ch', t.ag[k]? = some ch' ∧ ch.lastT ≤ ch'.lastT ∧
      (ch.fine.wrapped = true → ch'.fine.wrapped = true) ∧ (ch.medium.wrapped = true → ch'.medium.wrapped = true) ∧
      (ch.coarse.wrapped = true → ch'.coarse.wrapped = true)
end

