-- ==== Sys2Proof/Laws/Memory.lean ====
section
/-! SUPPORT. The line buffer's laws: read after write, the canonical form kept, the indices kept in bounds. -/

namespace Sys2Proof.Machine

theorem Memory.wfFrom_cons (lo x : Nat) (y : Byte) (rest : Memory) :
    Memory.wfFrom lo ((x, y) :: rest) = true ↔ lo ≤ x ∧ y ≠ 0 ∧ Memory.wfFrom (x + 1) rest = true := by
  simp [Memory.wfFrom, and_assoc]

/-- Below its first possible index a canonical list reads as 0x00. -/
theorem Memory.read_below (m : Memory) : ∀ lo z, Memory.wfFrom lo m = true → z < lo → m.read z = 0 := by
  induction m with
  | nil => intros; rfl
  | cons c rest ih =>
    obtain ⟨x, y⟩ := c
    intro lo z h hz
    obtain ⟨h1, -, h3⟩ := (Memory.wfFrom_cons ..).mp h
    have : x ≠ z := by omega
    rw [Memory.read, if_neg this]
    exact ih (x + 1) z h3 (by omega)

/-- Reading through one listed byte. -/
theorem Memory.read_entry_append (a x : Nat) (b : Byte) (r : Memory) (h : r.read a = 0) :
    Memory.read (Memory.entry a b ++ r) x = if x = a then b else r.read x := by
  unfold Memory.entry
  by_cases hx : x = a
  · subst hx
    split
    · rename_i hb; simpa [hb] using h
    · simp [Memory.read]
  · split <;> simp [Memory.read, Ne.symm hx]

/-- Listing one byte in front keeps the canonical form. -/
theorem Memory.wfFrom_entry_append (a lo : Nat) (b : Byte) (r : Memory) (hlo : lo ≤ a)
    (h : Memory.wfFrom (a + 1) r = true) : Memory.wfFrom lo (Memory.entry a b ++ r) = true := by
  have weaken : ∀ (r : Memory) (l l' : Nat), l' ≤ l → Memory.wfFrom l r = true → Memory.wfFrom l' r = true := by
    intro r l l' hl hr
    cases r with
    | nil => rfl
    | cons d rs =>
      obtain ⟨x, y⟩ := d
      rw [Memory.wfFrom_cons] at hr ⊢
      exact ⟨by omega, hr.2⟩
  unfold Memory.entry
  split
  · exact weaken r (a + 1) lo (by omega) h
  · rename_i hb
    exact (Memory.wfFrom_cons ..).mpr ⟨hlo, hb, h⟩

/-- A read after a write: the written byte at its index, the old byte everywhere else. -/
theorem Memory.read_write (m : Memory) (a x : Nat) (b : Byte) (h : m.wf = true) :
    (m.write a b).read x = if x = a then b else m.read x := by
  have key : ∀ (m : Memory) (lo : Nat), Memory.wfFrom lo m = true →
      (m.write a b).read x = if x = a then b else m.read x := by
    intro m
    induction m with
    | nil =>
      intro lo _
      have := Memory.read_entry_append a x b [] rfl
      rwa [List.append_nil] at this
    | cons c rest ih =>
      obtain ⟨y, v⟩ := c
      intro lo hwf
      obtain ⟨-, -, h3⟩ := (Memory.wfFrom_cons ..).mp hwf
      unfold Memory.write
      by_cases h1 : a < y
      · rw [if_pos h1]
        refine Memory.read_entry_append a x b _ ?_
        rw [Memory.read, if_neg (by omega)]
        exact Memory.read_below rest _ a h3 (by omega)
      · rw [if_neg h1]
        by_cases h2 : a = y
        · subst h2
          rw [if_pos rfl, Memory.read_entry_append a x b _ (Memory.read_below rest _ a h3 (by omega))]
          by_cases hx : x = a
          · simp [hx]
          · rw [if_neg hx, if_neg hx, Memory.read, if_neg (Ne.symm hx)]
        · rw [if_neg h2, Memory.read, Memory.read]
          by_cases hy : y = x
          · subst hy; simp [Ne.symm h2]
          · rw [if_neg hy, if_neg hy]; exact ih (y + 1) h3
  exact key m 0 h

/-- A write keeps the canonical form. -/
theorem Memory.write_wf (m : Memory) (a : Nat) (b : Byte) (h : m.wf = true) : (m.write a b).wf = true := by
  have key : ∀ (m : Memory) (lo : Nat), lo ≤ a → Memory.wfFrom lo m = true → Memory.wfFrom lo (m.write a b) = true := by
    intro m
    induction m with
    | nil =>
      intro lo hlo _
      have := Memory.wfFrom_entry_append a lo b [] hlo rfl
      rwa [List.append_nil] at this
    | cons c rest ih =>
      obtain ⟨y, v⟩ := c
      intro lo hlo hwf
      obtain ⟨h1, h2, h3⟩ := (Memory.wfFrom_cons ..).mp hwf
      unfold Memory.write
      split
      · exact Memory.wfFrom_entry_append a lo b _ hlo ((Memory.wfFrom_cons ..).mpr ⟨by omega, h2, h3⟩)
      · split
        · rename_i he; subst he
          exact Memory.wfFrom_entry_append a lo b _ hlo h3
        · exact (Memory.wfFrom_cons ..).mpr ⟨h1, h2, ih (y + 1) (by omega) h3⟩
  exact key m 0 (Nat.zero_le a) h

/-- A write adds no index but its own. -/
theorem Memory.write_mem (m : Memory) (a : Nat) (b : Byte) : ∀ x ∈ m.write a b, x.1 = a ∨ x ∈ m := by
  have entry : ∀ (r : Memory) x, x ∈ Memory.entry a b ++ r → x.1 = a ∨ x ∈ r := by
    intro r x hx
    rcases List.mem_append.mp hx with h | h
    · unfold Memory.entry at h
      split at h
      · simp at h
      · exact .inl (by rw [List.mem_singleton.mp h])
    · exact .inr h
  induction m with
  | nil => intro x hx; exact entry [] x (by simpa [Memory.write] using hx)
  | cons c rest ih =>
    obtain ⟨y, v⟩ := c
    intro x hx
    unfold Memory.write at hx
    split at hx
    · exact entry _ x hx
    · split at hx
      · exact (entry rest x hx).imp_right (List.mem_cons_of_mem _)
      · rcases List.mem_cons.mp hx with h | h
        · exact .inr (by rw [h]; exact List.mem_cons_self)
        · exact (ih x h).imp_right (List.mem_cons_of_mem _)

/-- The empty buffer has the canonical form. -/
theorem Memory.empty_wf : Memory.wf [] = true := rfl

/-- The reset state's buffer has the canonical form. -/
theorem reset_lb_wf : Memory.wf State.reset.lb = true := rfl

/-- Writing a run of characters keeps the canonical form. -/
theorem Memory.writeFrom_wf (cs : List Byte) : ∀ (m : Memory) (a : Nat), m.wf = true → (m.writeFrom a cs).wf = true := by
  induction cs with
  | nil => intro m a h; exact h
  | cons c cs ih => intro m a h; exact ih _ _ (m.write_wf a c h)

/-- The accumulated line after one more character. -/
theorem Memory.chars_write (m : Memory) (n : Nat) (b : Byte) (h : m.wf = true) :
    (m.write n b).chars (n + 1) = m.chars n ++ [b] := by
  simp only [Memory.chars, List.range_succ, List.map_append, List.map_cons, List.map_nil]
  congr 1
  · apply List.map_congr_left
    intro i hi
    have : i ≠ n := by have := List.mem_range.mp hi; omega
    rw [m.read_write n i b h, if_neg this]
  · rw [m.read_write n n b h, if_pos rfl]

/-- The accumulated line has as many characters as the cursor says. -/
@[simp] theorem Memory.chars_length (m : Memory) (n : Nat) : (m.chars n).length = n := by simp [Memory.chars]

end Sys2Proof.Machine
end

