-- ==== Sys2Proof/Laws/State.lean ====
section
/-! SUPPORT. One lemma per field per update of the state, each true by rfl, so that no proof unfolds an update. -/

namespace Sys2Proof.Machine

@[simp] theorem State.setWr_cfg (s : State) (n : Nat) : (s.setWr n).cfg = s.cfg := rfl
@[simp] theorem State.setWr_lb (s : State) (n : Nat) : (s.setWr n).lb = s.lb := rfl
@[simp] theorem State.setWr_wr (s : State) (n : Nat) : (s.setWr n).wr = n := rfl
@[simp] theorem State.setWr_ts (s : State) (n : Nat) : (s.setWr n).ts = s.ts := rfl
@[simp] theorem State.setWr_ag (s : State) (n : Nat) : (s.setWr n).ag = s.ag := rfl
@[simp] theorem State.setWr_inp (s : State) (n : Nat) : (s.setWr n).inp = s.inp := rfl
@[simp] theorem State.setWr_sinkAns (s : State) (n : Nat) : (s.setWr n).sinkAns = s.sinkAns := rfl
@[simp] theorem State.setWr_out (s : State) (n : Nat) : (s.setWr n).out = s.out := rfl

@[simp] theorem State.setLb_cfg (s : State) (i : Nat) (b : Byte) : (s.setLb i b).cfg = s.cfg := rfl
@[simp] theorem State.setLb_lb (s : State) (i : Nat) (b : Byte) : (s.setLb i b).lb = s.lb.write i b := rfl
@[simp] theorem State.setLb_wr (s : State) (i : Nat) (b : Byte) : (s.setLb i b).wr = s.wr := rfl
@[simp] theorem State.setLb_ts (s : State) (i : Nat) (b : Byte) : (s.setLb i b).ts = s.ts := rfl
@[simp] theorem State.setLb_ag (s : State) (i : Nat) (b : Byte) : (s.setLb i b).ag = s.ag := rfl
@[simp] theorem State.setLb_inp (s : State) (i : Nat) (b : Byte) : (s.setLb i b).inp = s.inp := rfl
@[simp] theorem State.setLb_sinkAns (s : State) (i : Nat) (b : Byte) : (s.setLb i b).sinkAns = s.sinkAns := rfl
@[simp] theorem State.setLb_out (s : State) (i : Nat) (b : Byte) : (s.setLb i b).out = s.out := rfl

@[simp] theorem State.setTs_cfg (s : State) (t : Telemetry) : (s.setTs t).cfg = s.cfg := rfl
@[simp] theorem State.setTs_lb (s : State) (t : Telemetry) : (s.setTs t).lb = s.lb := rfl
@[simp] theorem State.setTs_wr (s : State) (t : Telemetry) : (s.setTs t).wr = s.wr := rfl
@[simp] theorem State.setTs_ts (s : State) (t : Telemetry) : (s.setTs t).ts = t := rfl
@[simp] theorem State.setTs_ag (s : State) (t : Telemetry) : (s.setTs t).ag = s.ag := rfl
@[simp] theorem State.setTs_inp (s : State) (t : Telemetry) : (s.setTs t).inp = s.inp := rfl
@[simp] theorem State.setTs_sinkAns (s : State) (t : Telemetry) : (s.setTs t).sinkAns = s.sinkAns := rfl
@[simp] theorem State.setTs_out (s : State) (t : Telemetry) : (s.setTs t).out = s.out := rfl

@[simp] theorem State.emit_cfg (s : State) (o : Output) : (s.emit o).cfg = s.cfg := rfl
@[simp] theorem State.emit_lb (s : State) (o : Output) : (s.emit o).lb = s.lb := rfl
@[simp] theorem State.emit_wr (s : State) (o : Output) : (s.emit o).wr = s.wr := rfl
@[simp] theorem State.emit_ts (s : State) (o : Output) : (s.emit o).ts = s.ts := rfl
@[simp] theorem State.emit_ag (s : State) (o : Output) : (s.emit o).ag = s.ag := rfl
@[simp] theorem State.emit_inp (s : State) (o : Output) : (s.emit o).inp = s.inp := rfl
@[simp] theorem State.emit_sinkAns (s : State) (o : Output) : (s.emit o).sinkAns = s.sinkAns := rfl
@[simp] theorem State.emit_out (s : State) (o : Output) : (s.emit o).out = s.out ++ [o] := rfl

@[simp] theorem State.consume_cfg (s : State) : s.consume.cfg = s.cfg := rfl
@[simp] theorem State.consume_lb (s : State) : s.consume.lb = s.lb := rfl
@[simp] theorem State.consume_wr (s : State) : s.consume.wr = s.wr := rfl
@[simp] theorem State.consume_ts (s : State) : s.consume.ts = s.ts := rfl
@[simp] theorem State.consume_ag (s : State) : s.consume.ag = s.ag := rfl
@[simp] theorem State.consume_inp (s : State) : s.consume.inp = s.inp.tail := rfl
@[simp] theorem State.consume_sinkAns (s : State) : s.consume.sinkAns = s.sinkAns := rfl
@[simp] theorem State.consume_out (s : State) : s.consume.out = [] := rfl

@[simp] theorem State.resetCore_cfg (s : State) : s.resetCore.cfg = s.cfg := rfl
@[simp] theorem State.resetCore_lb (s : State) : s.resetCore.lb = [] := rfl
@[simp] theorem State.resetCore_wr (s : State) : s.resetCore.wr = 0 := rfl
@[simp] theorem State.resetCore_ts (s : State) : s.resetCore.ts = s.cfg.telemReset := rfl
@[simp] theorem State.resetCore_ag (s : State) : s.resetCore.ag = s.cfg.chans.map Chan.fresh := rfl
@[simp] theorem State.resetCore_inp (s : State) : s.resetCore.inp = s.inp := rfl
@[simp] theorem State.resetCore_sinkAns (s : State) : s.resetCore.sinkAns = s.sinkAns := rfl
@[simp] theorem State.resetCore_out (s : State) : s.resetCore.out = s.out := rfl

end Sys2Proof.Machine
end

