-- ==== Sys2Proof/Laws/Ops.lean ====
section
/-! SUPPORT. For each shared operation, one lemma that says once everything it can do. -/

namespace Sys2Proof.Machine

@[simp] theorem State.drop_eq (s : State) (d : Drop) : s.drop d = .next s := rfl

/-! The frame and its line. -/

@[simp] theorem frameOf_id (id : CanId) (bs : List Byte) : (frameOf id bs).id = id := rfl

@[simp] theorem frameOf_len (id : CanId) (bs : List Byte) : (frameOf id bs).len = bs.length := rfl

/-- A byte of a padded payload. -/
theorem pad8_get (bs : List Byte) (i : Nat) (h : i < 8) : (pad8 bs)[i] = bs.getD i 0 := by
  simp [pad8]

/-- A byte of a frame by its offset: the payload's byte, zero beyond the length. -/
theorem u8_frameOf (id : CanId) (bs : List Byte) (i : Nat) (h : i < 8) : u8 (frameOf id bs) i = bs.getD i 0 := by
  have : (frameOf id bs).data[i]? = some (frameOf id bs).data[i] := Vector.getElem?_eq_getElem h
  rw [u8, this]
  exact pad8_get bs i h

/-- The line parser's success: the `T` line of the frame, all of it. -/
theorem parseLine_ok {chars : List Byte} {f : CanFrame} (h : parseLine chars = .ok f) :
    ∃ c rest idBytes n ds, chars = c :: rest ∧ c = charT ∧ 10 ≤ chars.length ∧
      hexBytes (rest.take 8) = some idBytes ∧ hexDigit (rest.getD 8 0) = some n ∧ n.toNat ≤ 8 ∧
      chars.length = 10 + 2 * n.toNat ∧ hexBytes (rest.drop 9) = some ds ∧ f = frameOf (idOfBytes idBytes) ds := by
  unfold parseLine at h
  split at h
  · cases h
  rename_i c rest
  split at h
  · cases h
  rename_i hc
  split at h
  · cases h
  rename_i hlen
  split at h
  · rename_i idBytes n hid hn
    split at h
    · cases h
    split at h
    · cases h
    rename_i h8 hcount
    split at h
    · rename_i ds hds
      cases h
      exact ⟨c, rest, idBytes, n, ds, rfl, by simpa using hc, by omega, hid, hn, by omega, by simpa using hcount, hds, rfl⟩
    · cases h
  · cases h

/-- Digit pairs: one byte for two characters. -/
theorem hexBytes_length : ∀ {cs bs : List Byte}, hexBytes cs = some bs → cs.length = 2 * bs.length
  | [], bs, h => by simp only [hexBytes, Option.some.injEq] at h; subst h; rfl
  | [_], bs, h => by simp [hexBytes] at h
  | a :: b :: rest, bs, h => by
    unfold hexBytes at h
    split at h
    · rename_i x y r hx hy hr
      cases h
      simp [hexBytes_length hr]
      omega
    · cases h

/-- A parsed frame's payload is at most 8 bytes, as long as its length says. -/
theorem parseLine_frame {chars : List Byte} {f : CanFrame} (h : parseLine chars = .ok f) :
    ∃ id bs, f = frameOf id bs ∧ bs.length ≤ 8 ∧ chars.length = 10 + 2 * bs.length := by
  obtain ⟨c, rest, idBytes, n, ds, rfl, -, -, -, -, h8, hl, hds, rfl⟩ := parseLine_ok h
  have := hexBytes_length hds
  simp only [List.length_drop, List.length_cons] at this hl
  exact ⟨_, ds, rfl, by omega, by simp only [List.length_cons]; omega⟩

/-- The line of a frame of at most 8 bytes hands that frame on, whatever its row. -/
theorem runLine_frameOf (id : CanId) (bs : List Byte) (s : State) (h : bs.length ≤ 8) :
    runLine (frameOf id bs) s = acceptFrame (frameOf id bs) s := by
  match bs, h with
  | [], _ => rfl
  | [_], _ => rfl
  | [_, _], _ => rfl
  | [_, _, _], _ => rfl
  | [_, _, _, _], _ => rfl
  | [_, _, _, _, _], _ => rfl
  | [_, _, _, _, _, _], _ => rfl
  | [_, _, _, _, _, _, _], _ => rfl
  | [_, _, _, _, _, _, _, _], _ => rfl
  | _ :: _ :: _ :: _ :: _ :: _ :: _ :: _ :: _ :: _, h => simp only [List.length_cons] at h; omega

/-- A frame's decode always completes and changes the telemetry registers alone. -/
theorem runFrame_next (f : CanFrame) (s : State) : ∃ t, runFrame f s = .next (s.setTs t) := by
  have same : ∃ t, Host.Outcome.next (φ := Fault) (ρ := Refusal) s = .next (s.setTs t) := ⟨s.ts, rfl⟩
  unfold runFrame runDecoder
  split
  · unfold execPgn128259; split; exacts [same, ⟨_, rfl⟩]
  · unfold execPgn127488; split; exacts [same, ⟨_, rfl⟩]
  · unfold execPgn127493; split; exacts [same, ⟨_, rfl⟩]
  · unfold execPgn127508; split; exacts [same, ⟨_, rfl⟩]
  · unfold execPgn127506; split; exacts [same, ⟨_, rfl⟩]
  · unfold execPgn130306
    split
    · exact same
    · dsimp only
      split
      · exact ⟨_, rfl⟩
      · split
        · exact ⟨_, rfl⟩
        · exact same
  · unfold execPgn127250
    split
    · exact same
    · split
      · exact same
      · exact ⟨_, rfl⟩
  · unfold execPgn127245; split; exacts [same, ⟨_, rfl⟩]
  · unfold execPgn127237; split; exacts [same, ⟨_, rfl⟩]
  · exact same

/-- A valid frame: its FRAME output, then its decode, in one step. -/
theorem acceptFrame_next (f : CanFrame) (s : State) :
    ∃ t, acceptFrame f s = .next ((s.emit (.frame f)).setTs t) := runFrame_next f _

/-- A terminator's cases: nothing, a frame, or a dropped line. -/
theorem endOfLine_cases (s : State) :
    (s.wr = 0 ∧ endOfLine s = .next s) ∨
    (s.wr ≠ 0 ∧ ∃ f, parseLine (s.lb.chars s.wr) = .ok f ∧ endOfLine s = acceptFrame f (s.setWr 0)) ∨
    (s.wr ≠ 0 ∧ ∃ d, parseLine (s.lb.chars s.wr) = .error d ∧ endOfLine s = .next (s.setWr 0)) := by
  unfold endOfLine
  by_cases h : s.wr = 0
  · exact .inl ⟨h, by rw [if_pos h]⟩
  · refine .inr ?_
    rw [if_neg h]
    cases hp : parseLine (s.lb.chars s.wr) with
    | ok f =>
      obtain ⟨id, bs, rfl, hb, -⟩ := parseLine_frame hp
      exact .inl ⟨h, _, rfl, runLine_frameOf id bs _ hb⟩
    | error d => exact .inr ⟨h, d, rfl, rfl⟩

/-- A data byte's cases: stored, or the overflow. -/
theorem execData_cases (b : Byte) (s : State) :
    (s.wr < s.cfg.lineCap ∧ execData b s = .next ((s.setLb s.wr b).setWr (s.wr + 1))) ∨
    (s.cfg.lineCap ≤ s.wr ∧ execData b s = .next (s.setWr 0)) := by
  unfold execData
  by_cases h : s.wr < s.cfg.lineCap
  · exact .inl ⟨h, by rw [if_pos h]⟩
  · exact .inr ⟨by omega, by rw [if_neg h]; rfl⟩

/-- A received byte's cases: a terminator or a data byte. -/
theorem execRxbyte_cases (b : Byte) (s : State) :
    ((b = 0x0D ∨ b = 0x0A) ∧ execRxbyte b s = endOfLine s) ∨
    (b ≠ 0x0D ∧ b ≠ 0x0A ∧ execRxbyte b s = execData b s) := by
  unfold execRxbyte
  by_cases h : b = 0x0D
  · exact .inl ⟨.inl h, by rw [if_pos h]; rfl⟩
  · by_cases h' : b = 0x0A
    · exact .inl ⟨.inr h', by rw [if_neg h, if_pos h']; rfl⟩
    · exact .inr ⟨h, h', by rw [if_neg h, if_neg h']⟩

/-! The aggregator. -/

@[simp] theorem SinkIO.sendRow_ans (io : SinkIO) (n : String) (h : Horizon) (t : Nat) (v : Val) :
    (io.sendRow n h t v).ans = io.ans.tail := by
  unfold SinkIO.sendRow; split <;> simp_all

/-- A row's outputs: the row, and a report right after it when the sink's answer is false. -/
theorem SinkIO.sendRow_out (io : SinkIO) (n : String) (h : Horizon) (t : Nat) (v : Val) :
    (io.sendRow n h t v).out =
      io.out ++ .row n h t v :: (if io.ans.head? = some false then [.report n h t] else []) := by
  unfold SinkIO.sendRow
  split
  · simp_all
  · rename_i ok rest h
    cases ok <;> simp [h]

/-- An accumulator's cases: the n-th point gives the mean and empties it, any other is added. -/
theorem Acc.feed_cases (a : Acc) (n : Nat) (v : Val) :
    (a.cnt + 1 = n ∧ a.feed n v = (Acc.empty, some ((a.sum.add v).divNat n))) ∨
    (a.cnt + 1 ≠ n ∧ a.feed n v = (⟨a.sum.add v, a.cnt + 1⟩, none)) := by
  unfold Acc.feed
  by_cases h : a.cnt + 1 = n
  · exact .inl ⟨h, by rw [if_pos h]⟩
  · exact .inr ⟨h, by rw [if_neg h]⟩

/-- The ring write, field by field. -/
@[simp] theorem Series.push_slots (r : Series) (cap : Nat) (v : Val) :
    (r.push cap v).slots = r.slots.set r.idx (some v) := rfl

@[simp] theorem Series.push_idx (r : Series) (cap : Nat) (v : Val) : (r.push cap v).idx = (r.idx + 1) % cap := rfl

@[simp] theorem Series.push_wrapped (r : Series) (cap : Nat) (v : Val) :
    (r.push cap v).wrapped = (r.wrapped || (r.idx + 1) % cap == 0) := rfl

/-- A coarse store: the coarse ring alone. -/
theorem storeCoarse_eq (e : StoreEnv) (v : Val) (x : Chan × SinkIO) :
    storeCoarse e v x =
      ({ x.1 with coarse := x.1.coarse.push e.chan.cap v }, x.2.sendRow e.chan.name .coarse e.now v) := rfl

/-- A medium store's cases: with the coarse accumulator completed or not. -/
theorem storeMedium_cases (e : StoreEnv) (v : Val) (x : Chan × SinkIO) :
    (x.1.acc2.cnt + 1 = e.n2 ∧
      storeMedium e v x = storeCoarse e ((x.1.acc2.sum.add v).divNat e.n2)
        ({ x.1 with medium := x.1.medium.push e.chan.cap v, acc2 := Acc.empty },
          x.2.sendRow e.chan.name .medium e.now v)) ∨
    (x.1.acc2.cnt + 1 ≠ e.n2 ∧
      storeMedium e v x =
        ({ x.1 with medium := x.1.medium.push e.chan.cap v, acc2 := ⟨x.1.acc2.sum.add v, x.1.acc2.cnt + 1⟩ },
          x.2.sendRow e.chan.name .medium e.now v)) := by
  unfold storeMedium
  rcases Acc.feed_cases x.1.acc2 e.n2 v with ⟨h, hf⟩ | ⟨h, hf⟩
  · exact .inl ⟨h, by simp only [hf]⟩
  · exact .inr ⟨h, by simp only [hf]⟩

/-- A fine store's cases: with the medium accumulator completed or not. -/
theorem storeFine_cases (e : StoreEnv) (v : Val) (x : Chan × SinkIO) :
    (x.1.acc1.cnt + 1 = e.n1 ∧
      storeFine e v x = storeMedium e ((x.1.acc1.sum.add v).divNat e.n1)
        ({ x.1 with fine := x.1.fine.push e.chan.cap v, acc1 := Acc.empty },
          x.2.sendRow e.chan.name .fine e.now v)) ∨
    (x.1.acc1.cnt + 1 ≠ e.n1 ∧
      storeFine e v x =
        ({ x.1 with fine := x.1.fine.push e.chan.cap v, acc1 := ⟨x.1.acc1.sum.add v, x.1.acc1.cnt + 1⟩ },
          x.2.sendRow e.chan.name .fine e.now v)) := by
  unfold storeFine
  rcases Acc.feed_cases x.1.acc1 e.n1 v with ⟨h, hf⟩ | ⟨h, hf⟩
  · exact .inl ⟨h, by simp only [hf]⟩
  · exact .inr ⟨h, by simp only [hf]⟩

/-- The time gate. -/
theorem gateOpen_iff (ivl lastT now : Nat) : gateOpen ivl lastT now = true ↔ ivl ≤ now - lastT := by
  simp [gateOpen]

/-- The clock's order. -/
theorem clockWentBack_iff (now : Nat) (ag : List Chan) : clockWentBack now ag = true ↔ ∃ ch ∈ ag, now < ch.lastT := by
  simp [clockWentBack]

/-- A channel's part of a SAMPLE: a fine store, or nothing. -/
theorem sampleChan_cases (cfg : Config) (t : Telemetry) (now : Nat) (c : ChanCfg) (x : Chan × SinkIO) :
    (gateOpen c.ivl x.1.lastT now = true ∧
      sampleChan cfg t now c x = storeFine ⟨c, cfg.n1, cfg.n2, now⟩ (numeric t c.src) ({ x.1 with lastT := now }, x.2)) ∨
    (gateOpen c.ivl x.1.lastT now = false ∧ sampleChan cfg t now c x = x) := by
  unfold sampleChan
  cases h : gateOpen c.ivl x.1.lastT now
  · exact .inr ⟨rfl, by simp⟩
  · exact .inl ⟨rfl, by simp⟩

/-- A SAMPLE's cases: nothing at all where the clock has gone backwards for some channel, else the channels in order. -/
theorem execSample_cases (now : Nat) (s : State) :
    ((∃ ch ∈ s.ag, now < ch.lastT) ∧ execSample now s = .next s) ∨
    ((∀ ch ∈ s.ag, ch.lastT ≤ now) ∧
      execSample now s = .next { s with
        ag := (sampleChans s.cfg s.ts now s.cfg.chans s.ag ⟨s.out, s.sinkAns⟩).1
        out := (sampleChans s.cfg s.ts now s.cfg.chans s.ag ⟨s.out, s.sinkAns⟩).2.out
        sinkAns := (sampleChans s.cfg s.ts now s.cfg.chans s.ag ⟨s.out, s.sinkAns⟩).2.ans }) := by
  unfold execSample
  by_cases h : clockWentBack now s.ag = true
  · exact .inl ⟨(clockWentBack_iff now s.ag).mp h, by rw [if_pos h]⟩
  · refine .inr ⟨fun ch hc => ?_, by rw [if_neg h]⟩
    by_contra hlt
    exact h ((clockWentBack_iff now s.ag).mpr ⟨ch, hc, by omega⟩)

/-- A SAMPLE changes the aggregator, the outputs and the sink's answers alone. -/
theorem execSample_eq (now : Nat) (s : State) :
    ∃ ag out ans, execSample now s = .next { s with ag := ag, out := out, sinkAns := ans } := by
  rcases execSample_cases now s with ⟨-, h⟩ | ⟨-, h⟩
  · exact ⟨s.ag, s.out, s.sinkAns, h⟩
  · exact ⟨_, _, _, h⟩

/-- A floor at pi is the floor at one of the two bounds of some level. -/
theorem floorAtPi_cases (f : Rat → Rat) : ∀ fuel n : Nat,
    ∃ m, floorAtPi f n fuel = (f (piBounds m).1).floor ∨ floorAtPi f n fuel = (f (piBounds m).2).floor := by
  intro fuel
  induction fuel with
  | zero =>
    intro n
    refine ⟨n, ?_⟩
    unfold floorAtPi
    dsimp only
    split
    · exact .inl rfl
    · split
      · exact .inr rfl
      · exact .inl rfl
  | succ k ih =>
    intro n
    unfold floorAtPi
    dsimp only
    split
    · exact ⟨n, .inl rfl⟩
    · exact ih (n + 1)

/-- One step: an operation executed on the consumed state, nothing presented, or a refusal. -/
theorem step_cases (s : State) :
    (s.cfg.ok = true ∧ s.inp = [] ∧ step s = .next s.consume) ∨
    (s.cfg.ok = true ∧ ∃ p rest, s.inp = p :: rest ∧
      ((∃ i, decodePort p = .ok i ∧ step s = exec i s.consume) ∨
        (∃ r, decodePort p = .error r ∧ step s = .next s.consume))) ∨
    (s.cfg.ok = false ∧ step s = .refused .badConfiguration) := by
  unfold step
  cases hc : s.cfg.ok
  · exact .inr (.inr ⟨rfl, by simp⟩)
  · cases hi : s.inp with
    | nil => exact .inl ⟨rfl, rfl, by simp⟩
    | cons p rest =>
      refine .inr (.inl ⟨rfl, p, rest, rfl, ?_⟩)
      cases hp : decodePort p with
      | ok i => exact .inl ⟨i, rfl, by simp [hp]⟩
      | error r => exact .inr ⟨r, rfl, by simp [hp]⟩

end Sys2Proof.Machine
end

