-- ==== Sys2Proof/Laws/PerInstr.lean ====
section
/-! SUPPORT. Per-instruction lemmas about the instruction as syntax: the encoding of every instruction is a word of
the format the opcode table gives its row. -/

namespace Sys2Proof.Laws

/-- The formats of spec/opcode_table.json; the outbound line is told apart from the inbound ones. -/
inductive Format where
  | port
  | byte
  | line
  | tx
  | can
deriving DecidableEq, Repr

/-- The format of a word. -/
def formatOf : Word → Format
  | .port _ => .port
  | .byte _ => .byte
  | .line _ => .line
  | .tx _ => .tx
  | .can _ => .can

/-- The format of an instruction's row. -/
def rowFormat : Instr → Format
  | .reset => .port
  | .rxbyte _ => .port
  | .sample _ => .port
  | .cmd _ _ _ => .port
  | .rsvd => .port
  | .eolCr => .byte
  | .eolLf => .byte
  | .data _ => .byte
  | .tline0 _ => .line
  | .tline1 _ _ => .line
  | .tline2 _ _ _ => .line
  | .tline3 _ _ _ _ => .line
  | .tline4 _ _ _ _ _ => .line
  | .tline5 _ _ _ _ _ _ => .line
  | .tline6 _ _ _ _ _ _ _ => .line
  | .tline7 _ _ _ _ _ _ _ _ => .line
  | .tline8 _ _ _ _ _ _ _ _ _ => .line
  | .pgn128259 _ => .can
  | .pgn127488 _ => .can
  | .pgn127493 _ => .can
  | .pgn127508 _ => .can
  | .pgn127506 _ => .can
  | .pgn130306 _ => .can
  | .pgn127250 _ => .can
  | .pgn127245 _ => .can
  | .pgn127237 _ => .can
  | .ignore _ => .can
  | .cmdTx _ _ _ _ _ => .tx

/-- The encoding has the row's format. -/
def EncodeFormat.Statement (i : Instr) : Prop := formatOf (encode i) = rowFormat i

theorem EncodeFormat.reset : EncodeFormat.Statement .reset := rfl
theorem EncodeFormat.rxbyte : ∀ a, EncodeFormat.Statement (.rxbyte a) := fun _ => rfl
theorem EncodeFormat.sample : ∀ a, EncodeFormat.Statement (.sample a) := fun _ => rfl
theorem EncodeFormat.cmd : ∀ a b c, EncodeFormat.Statement (.cmd a b c) := fun _ _ _ => rfl
theorem EncodeFormat.rsvd : EncodeFormat.Statement .rsvd := rfl
theorem EncodeFormat.eolCr : EncodeFormat.Statement .eolCr := rfl
theorem EncodeFormat.eolLf : EncodeFormat.Statement .eolLf := rfl
theorem EncodeFormat.data : ∀ a, EncodeFormat.Statement (.data a) := fun _ => rfl
theorem EncodeFormat.tline0 : ∀ a, EncodeFormat.Statement (.tline0 a) := fun _ => rfl
theorem EncodeFormat.tline1 : ∀ a b, EncodeFormat.Statement (.tline1 a b) := fun _ _ => rfl
theorem EncodeFormat.tline2 : ∀ a b c, EncodeFormat.Statement (.tline2 a b c) := fun _ _ _ => rfl
theorem EncodeFormat.tline3 : ∀ a b c d, EncodeFormat.Statement (.tline3 a b c d) := fun _ _ _ _ => rfl
theorem EncodeFormat.tline4 : ∀ a b c d e, EncodeFormat.Statement (.tline4 a b c d e) := fun _ _ _ _ _ => rfl
theorem EncodeFormat.tline5 : ∀ a b c d e f, EncodeFormat.Statement (.tline5 a b c d e f) := fun _ _ _ _ _ _ => rfl
theorem EncodeFormat.tline6 : ∀ a b c d e f g, EncodeFormat.Statement (.tline6 a b c d e f g) := fun _ _ _ _ _ _ _ => rfl
theorem EncodeFormat.tline7 : ∀ a b c d e f g h, EncodeFormat.Statement (.tline7 a b c d e f g h) := fun _ _ _ _ _ _ _ _ => rfl
theorem EncodeFormat.tline8 : ∀ a b c d e f g h i, EncodeFormat.Statement (.tline8 a b c d e f g h i) := fun _ _ _ _ _ _ _ _ _ => rfl
theorem EncodeFormat.pgn128259 : ∀ a, EncodeFormat.Statement (.pgn128259 a) := fun _ => rfl
theorem EncodeFormat.pgn127488 : ∀ a, EncodeFormat.Statement (.pgn127488 a) := fun _ => rfl
theorem EncodeFormat.pgn127493 : ∀ a, EncodeFormat.Statement (.pgn127493 a) := fun _ => rfl
theorem EncodeFormat.pgn127508 : ∀ a, EncodeFormat.Statement (.pgn127508 a) := fun _ => rfl
theorem EncodeFormat.pgn127506 : ∀ a, EncodeFormat.Statement (.pgn127506 a) := fun _ => rfl
theorem EncodeFormat.pgn130306 : ∀ a, EncodeFormat.Statement (.pgn130306 a) := fun _ => rfl
theorem EncodeFormat.pgn127250 : ∀ a, EncodeFormat.Statement (.pgn127250 a) := fun _ => rfl
theorem EncodeFormat.pgn127245 : ∀ a, EncodeFormat.Statement (.pgn127245 a) := fun _ => rfl
theorem EncodeFormat.pgn127237 : ∀ a, EncodeFormat.Statement (.pgn127237 a) := fun _ => rfl
theorem EncodeFormat.ignore : ∀ a, EncodeFormat.Statement (.ignore a) := fun _ => rfl
theorem EncodeFormat.cmdTx : ∀ a b c d e, EncodeFormat.Statement (.cmdTx a b c d e) := fun _ _ _ _ _ => rfl

end Sys2Proof.Laws
end

