-- ==== Sys2Proof/Tests/Slice0.lean ====
section
/-! SUPPORT. The model's own tests. Every expected value is a vector of 95_test_vectors.md or hand calculation from
the rule named; each test of a meaning is one step on a small state. -/

namespace Sys2Proof.Tests

open Sys2Proof Sys2Proof.Machine

/-- The bytes of an ASCII text. -/
def asc (t : String) : List Byte := t.toList.map fun c => BitVec.ofNat 8 c.toNat

/-- The state after one step, the state itself where the step stops. -/
def stepped (s : State) : State :=
  match step s with
  | .next t => t
  | _ => s

/-- The state after the terminator of a line already in the buffer. -/
def gets (s : State) (line : String) : State := stepped (s.withLine (asc line))

/-- The reset state with other registers. -/
def withTs (t : Telemetry) : State := State.reset.setTs t

/-- A quarter turn in wire units, 15708 counts, in degrees (95_test_vectors.md V8.5). -/
def quarter : Val := ⟨0, 15708 / 10000⟩

/-! Well-formedness: each check refuses an ill-formed term. -/

theorem test_wf_data_refuses_cr : Instr.wf false (.data 0x0D) = false := by decide

theorem test_wf_data_refuses_lf : Instr.wf false (.data 0x0A) = false := by decide

theorem test_wf_frame_refuses_length_9 :
    Instr.wf false (.pgn127493 ⟨0x09F20523, 9, pad8 [0, 2]⟩) = false := by decide

theorem test_wf_frame_refuses_padding :
    Instr.wf false (.pgn127493 ⟨0x09F20523, 2, pad8 [0, 2, 7]⟩) = false := by decide

theorem test_wf_refuses_other_pgn (f : CanFrame) (h : f = frameOf 0x09F20523 [0, 2]) :
    ([Instr.pgn128259 f, .pgn127488 f, .pgn127508 f, .pgn127506 f, .pgn130306 f, .pgn127250 f, .pgn127245 f,
      .pgn127237 f, .ignore f].all fun i => !i.wf false) = true := by subst h; decide

theorem test_wf_gear_refuses_speed_id : Instr.wf false (.pgn127493 (frameOf 0x09F50323 [0, 2, 2])) = false := by decide

theorem test_wf_refuses_edp_when_used : Instr.wf true (.pgn128259 (frameOf 0x0BF50323 [0, 2, 2])) = false := by decide

theorem test_wf_command_refuses_field : Instr.wf false (.cmdTx 3 0x23 1 true 62833) = false := by decide

/-! Decoding: every row's word written out from the encoding (30_encoding.md R91, R92, R95, R103). -/

theorem test_decode_reset_overrides : decodePort ⟨true, true, 0, 0x54, 0, false, 0, Val.zero⟩ = .ok .reset := by decide

theorem test_decode_rxbyte :
    decodePort ⟨false, true, 0, 0x54, 0, false, 0, Val.zero⟩ = .ok (.rxbyte 0x54) := by decide

theorem test_decode_sample :
    decodePort ⟨false, true, 1, 0, 1000, false, 0, Val.zero⟩ = .ok (.sample 1000) := by decide

theorem test_decode_cmd :
    decodePort ⟨false, true, 2, 0, 0, true, 1, Val.ofRat 181⟩ = .ok (.cmd true 1 (Val.ofRat 181)) := by decide +kernel

theorem test_decode_rsvd : decodePort ⟨false, true, 3, 0, 0, false, 0, Val.zero⟩ = .ok .rsvd := by decide

theorem test_decode_idle : decodePort ⟨false, false, 3, 0, 0, false, 0, Val.zero⟩ = .error .idle := by decide

theorem test_decode_bytes :
    [0x0D, 0x0A, 0x54, 0x00, 0x0B, 0xFF].map decodeByte =
      [.eolCr, .eolLf, .data 0x54, .data 0x00, .data 0x0B, .data 0xFF] := by decide

theorem test_decode_tline0 : decodeLine (asc "TFFFFFFFF0") = .ok (.tline0 0xFFFFFFFF) := by decide

theorem test_decode_tline1 : decodeLine (asc "T09F20523102") = .ok (.tline1 0x09F20523 0x02) := by decide

theorem test_decode_tline2 : decodeLine (asc "T1823FF0022710") = .ok (.tline2 0x1823FF00 0x27 0x10) := by decide

theorem test_decode_tline3 : decodeLine (asc "T09F503233000202") = .ok (.tline3 0x09F50323 0 2 2) := by decide

theorem test_decode_tline4 :
    decodeLine (asc "T09F2000040040C0C8") = .ok (.tline4 0x09F20000 0x00 0x40 0xC0 0xC8) := by decide

theorem test_decode_tline5 :
    decodeLine (asc "T09F21423500E80418FC") = .ok (.tline5 0x09F21423 0x00 0xE8 0x04 0x18 0xFC) := by decide

theorem test_decode_tline6 :
    decodeLine (asc "T09FD0223600F4015C3D01") = .ok (.tline6 0x09FD0223 0x00 0xF4 0x01 0x5C 0x3D 0x01) := by decide

theorem test_decode_tline7 :
    decodeLine (asc "T09F20523701020304050607") = .ok (.tline7 0x09F20523 1 2 3 4 5 6 7) := by decide

theorem test_decode_tline8 :
    decodeLine (asc "T09F2052380001020304050607") = .ok (.tline8 0x09F20523 0 1 2 3 4 5 6 7) := by decide

theorem test_decode_lower_case : decodeLine (asc "T09f205232000a") = .ok (.tline2 0x09F20523 0x00 0x0A) := by decide

/-- The drops of B3 (VB3.2, VB3.14, VB3.20, VB3.22, VB3.23, VB3.28, VB3.29, VB3.31, VB3.33, VB3.36). -/
theorem test_decode_bad_lines :
    ["T1823FF0082710C", "t09F2052320002", "T", "T09F205232000", "T09F205232000200", "T09F20523 20002",
      "T09F20523G0002", "T09F2052320G02", "T09F2052390002", "T09F2052392"].map (fun t => parseLine (asc t)) =
      [.error .count, .error .lead, .error .count, .error .count, .error .count, .error .hex, .error .hex, .error .hex,
        .error .len, .error .len] := by decide

/-- VB5.1 to VB5.9: each decoder's identifier. -/
theorem test_decode_identifiers :
    [0x09F50323, 0x09F20023, 0x09F20523, 0x09F21423, 0x09F21223, 0x09FD0223, 0x09F11223, 0x09F10D23, 0x09F10523].map
      (fun id => Decoder.ofPgn (pgnOfId false id)) =
    [.pgn128259, .pgn127488, .pgn127493, .pgn127508, .pgn127506, .pgn130306, .pgn127250, .pgn127245, .pgn127237] := by
  decide

theorem test_decode_can_keeps_frame :
    decodeCan false (frameOf 0x1DF105FF [1, 1, 0, 0]) = .pgn127237 (frameOf 0x1DF105FF [1, 1, 0, 0]) := by decide

/-- VB5.13 to VB5.23: PDU1, the boundary, the data pages. -/
theorem test_pgn_numbers :
    [(false, 0x1823FF00), (false, 0x19EF2301), (false, 0x19F02301), (false, 0x18EEFF23), (false, 0x08F50323),
      (false, 0x0BF50323), (true, 0x0BF50323), (false, 0x1FFFFFFF), (true, 0x1FFFFFFF)].map
      (fun x => pgnOfId x.1 x.2) = [8960, 126720, 127011, 60928, 62723, 128259, 259331, 131071, 262143] := by decide

theorem test_decode_command_line :
    decodeTx (asc "T0DF1052380101667B00000000") = .ok (.cmdTx 3 0x23 1 true 0x7B66) := by decide

theorem test_decode_not_a_command : decodeTx (asc "T0DF1052380101667B00000001") = .error .notCommand := by decide

theorem test_encode_command_line :
    encode (.cmdTx 3 0x23 1 true 0x7B66) = .tx (asc "T0DF1052380101667B00000000") := by decide

/-- The table's own match values: the five PORT words, the two terminators, a CANID word. -/
theorem test_table_words :
    [0x8, 0x4, 0x5, 0x7, 0xD, 0xA].map (decodeTableWord 8) =
      [some .reset, some (.rxbyte 0), some (.sample 0), some .rsvd, some .eolCr, some .eolLf] ∧
    decodeTableWord 32 0x01F20500 = some (.pgn127493 (frameOf 0x01F20500 [0, 0, 0, 0, 0, 0, 0, 0])) := by decide

/-- A LINE word's first character is the number's low byte: "T000000000" placed as a fetched word runs as the line. -/
theorem test_fetch_line :
    (stepped (State.reset.withFetchWord 80 0x30303030303030303054)).out = [.frame (frameOf 0 [])] := by decide

/-! Ports. -/

/-- VB1.1, VB1.7: RESET with a half-received line, overriding a byte presented with it. -/
theorem test_reset :
    stepped { (withTs { Telemetry.zeroed with gear := .reverse, apEngaged := true }) with
      lb := [(0, 0x54)], wr := 1, inp := [⟨true, true, 0, 0x54, 0, false, 0, Val.zero⟩] } = State.reset := by decide

/-- VB1.4. -/
theorem test_rxbyte_stores :
    stepped { State.reset with inp := [PortIn.rx 0x54] } = { State.reset with lb := [(0, 0x54)], wr := 1 } := by decide

/-- VB1.2: no operation presented. -/
theorem test_idle : stepped { State.reset with inp := [PortIn.quiet] } = State.reset := by decide

/-- VB1.3. -/
theorem test_rsvd_refused : exec .rsvd State.reset = .refused .reservedOperation := rfl

/-- A configuration outside its constraints is refused (93_implementation_defined.md U4). -/
theorem test_bad_configuration_refused :
    step { State.reset with cfg := { Config.atReset with lineCap := 25 } } = .refused .badConfiguration := by rfl

/-- One channel as in VB15a, in the state before its row 8. -/
def chanA : ChanCfg := ⟨"batt_v", .battV, 4, 1000⟩

def rat (n : Rat) : Val := Val.ofRat n

def ringOf (l : List Rat) (n i : Nat) (w : Bool) : Series := ⟨l.map (some ∘ rat) ++ List.replicate n none, i, w⟩

def before8 : State :=
  { State.reset with
    cfg := { Config.atReset with chans := [chanA], n1 := 3, n2 := 2 }
    ts := { Telemetry.zeroed with battV := rat 12 }
    ag := [⟨5000, ringOf [10, 126/10, 132/10, 20] 0 1 true, ringOf [126/10] 3 1 false, ringOf [] 4 0 false,
      ⟨rat 30, 2⟩, ⟨rat (126/10), 1⟩⟩] }

/-- VB15a.8: a fine point that completes the medium and the coarse point. -/
theorem test_sample_cascade :
    stepped { before8 with inp := [PortIn.sampleAt 9000], sinkAns := [true, false] } =
      { before8 with
        ag := [⟨9000, ringOf [10, 12, 132/10, 20] 0 2 true, ringOf [126/10, 14] 2 2 false, ringOf [133/10] 3 1 false,
          Acc.empty, Acc.empty⟩]
        out := [.row "batt_v" .fine 9000 (rat 12), .row "batt_v" .medium 9000 (rat 14), .report "batt_v" .medium 9000,
          .row "batt_v" .coarse 9000 (rat (133/10))] } := by decide +kernel

/-- VB15a.3's gate: 999 ticks store nothing. -/
theorem test_sample_gate : stepped { before8 with inp := [PortIn.sampleAt 5999] } = before8 := by decide +kernel

/-- R213, log 10: one channel's clock went back, so that a channel whose gate is open stores nothing either. -/
theorem test_sample_clock_back :
    let s := { before8 with
      cfg := { before8.cfg with chans := [chanA, chanA] }
      ag := before8.ag ++ [Chan.fresh chanA] }
    stepped { s with inp := [PortIn.sampleAt 4999] } = s := by decide +kernel

/-- VB16.15: 200 degrees, low 16 bits sent. -/
theorem test_cmd_200 :
    (stepped { State.reset with inp := [PortIn.command true 1 (Val.ofRat 200)] }).out =
      [.tx (asc "T0DF10523801015B8800000000" ++ [0x0D])] := by decide +kernel

/-- VB16.4: a negative setpoint. -/
theorem test_cmd_negative :
    (stepped { State.reset with inp := [PortIn.command true 2 (Val.ofRat (-10))] }).out =
      [.tx (asc "T0DF10523802019FEE00000000" ++ [0x0D])] := by decide +kernel

/-- VB16.8, VB16.13, VB16.18, VB16.19: wire units at the rounding and sentinel boundaries. -/
theorem test_wire_units :
    [(3/1000 : Rat), 18774/100, 359999/1000, -7205/10].map (fun q => wireUnits (mod360 (Val.ofRat q))) =
      [1, 32767, 62832, 62745] := by decide +kernel

/-- A setpoint read back from a register: 31590 wire units in degrees are 31590 wire units (R231, R232). -/
theorem test_wire_units_of_angle : wireUnits (mod360 (deg 31590)) = 31590 := by decide +kernel

/-- VB16.21: another terminator and identifier. -/
theorem test_command_line_crlf :
    (match exec (.cmdTx 6 0xFE 3 true 0x3D5C) { State.reset with cfg := { Config.atReset with txEol := .crlf } } with
      | .next t => t.out
      | _ => []) = [.tx (asc "T19F105FE803015C3D00000000" ++ [0x0D, 0x0A])] := by decide

/-! Bytes and lines. -/

/-- VB3.13: a terminator at an empty buffer. -/
theorem test_eol_empty : exec .eolCr State.reset = .next State.reset ∧ exec .eolLf State.reset = .next State.reset :=
  ⟨rfl, rfl⟩

/-- VB3.33: a dropped line empties the buffer. -/
theorem test_bad_line_dropped :
    (gets State.reset "T09F2052390002").wr = 0 ∧ (gets State.reset "T09F2052390002").out = [] := by decide

/-- VB4.1: the 27th character at LINE_CAP 26. -/
theorem test_overflow :
    exec (.data 0x58) { State.reset with wr := 26 } = .next { State.reset with wr := 0 } := by rfl

/-- VB3.3 and the frame of each other length: the FRAME output of the line. -/
theorem test_tline0 : (gets State.reset "T1FFFFFFF0").out = [.frame (frameOf 0x1FFFFFFF [])] := by decide

theorem test_tline1 : (gets State.reset "T09F20523102").out = [.frame (frameOf 0x09F20523 [2])] := by decide

theorem test_tline2 : (gets State.reset "T1823FF0022710").out = [.frame (frameOf 0x1823FF00 [0x27, 0x10])] := by decide

theorem test_tline7 :
    (gets State.reset "T09F20523701020304050607").out = [.frame (frameOf 0x09F20523 [1, 2, 3, 4, 5, 6, 7])] := by decide

theorem test_tline8 :
    (gets State.reset "T09F2052380001020304050607").out =
      [.frame (frameOf 0x09F20523 [0, 1, 2, 3, 4, 5, 6, 7])] := by decide

/-! The decoders. -/

/-- VB6.1, VB6.5. -/
theorem test_speed :
    (gets State.reset "T09F503233000202").ts.stwKn = Val.ofRat (999135816/100000000) ∧
    (gets State.reset "T09F503233000080").ts.stwKn = Val.ofRat (-63695880192/100000000) := by decide +kernel

/-- VB6.3, VB6.8: the sentinel and a short frame. -/
theorem test_speed_kept :
    (gets (withTs { Telemetry.zeroed with stwKn := rat (35/10) }) "T09F50323300FF7F").ts.stwKn = rat (35/10) ∧
    (gets (withTs { Telemetry.zeroed with stwKn := rat (35/10) }) "T09F5032320002").ts.stwKn = rat (35/10) := by
  decide +kernel

/-- VB7.3, VB7.4, VB7.10, VB7.11, VB7.12. -/
theorem test_rpm :
    ["T09F20023400000100", "T09F20023400000200", "T09F2002340000810C", "T09F2002340000820C",
      "T09F2002340000FEFF"].map (fun l => (gets State.reset l).ts.rpm) = [0, 1, 800, 801, 16384] := by decide

/-- VB7.2: the sentinel. -/
theorem test_rpm_kept :
    (gets (withTs { Telemetry.zeroed with rpm := 1234 }) "T09F2002340000FFFF").ts.rpm = 1234 := by decide

/-- VB8.3, VB8.6, VB8.8. -/
theorem test_gear :
    ["T09F2052320002", "T09F20523200FD", "T09F20523200FF"].map
      (fun l => (gets (withTs { Telemetry.zeroed with gear := .reverse }) l).ts.gear) =
      [.reverse, .drive, .neutral] := by decide

/-- VB9.1, VB9.2. -/
theorem test_battery :
    ((gets State.reset "T09F21423500E80418FC").ts.battV, (gets State.reset "T09F21423500E80418FC").ts.battA) =
      (rat (1256/100), rat (-100)) ∧
    ((gets State.reset "T09F21423500FF7F18FC").ts.battV, (gets State.reset "T09F21423500FF7F18FC").ts.battA) =
      (rat 0, rat (-100)) := by decide +kernel

/-- VB10.1, VB10.2, VB10.6. -/
theorem test_soc :
    ["T09F2122320057", "T09F21223200FF", "T09F21223200FE"].map
      (fun l => (gets (withTs { Telemetry.zeroed with socPct := 42 }) l).ts.socPct) = [87, 42, 254] := by decide

/-- VB11.1, VB11.13: the apparent pair, and a negative angle in the true pair. -/
theorem test_wind :
    (gets State.reset "T09FD0223600F4015C3D01").ts = { Telemetry.zeroed with awsMs := rat 5, awaDeg := quarter } ∧
    (gets State.reset "T09FD0223600F401A4C202").ts =
      { Telemetry.zeroed with twsMs := rat 5, twaDeg := ⟨360, -15708/10000⟩ } := by decide +kernel

/-- VB11.6, VB11.7: the reference mask. -/
theorem test_wind_mask :
    (gets State.reset "T09FD0223600F4015C3DFA").ts = Telemetry.zeroed ∧
    (gets { State.reset with cfg := { Config.atReset with windRefMask := 0x07 } } "T09FD0223600F4015C3DFA").ts =
      { Telemetry.zeroed with twsMs := rat 5, twaDeg := quarter } := by decide +kernel

/-- VB12a.3: the first heading seeds the setpoint. -/
theorem test_heading_seeds :
    (gets State.reset "T09F112233005C3D").ts =
      { Telemetry.zeroed with headingDeg := quarter, apSetpointDeg := quarter } := by decide +kernel

/-- VB12c.2: engaged, no seeding. -/
theorem test_heading_engaged :
    (gets (withTs { Telemetry.zeroed with apEngaged := true }) "T09F112233005C3D").ts =
      { Telemetry.zeroed with apEngaged := true, headingDeg := quarter } := by decide +kernel

/-- VB13.1, VB13.3. -/
theorem test_rudder :
    (gets State.reset "T09F10D23218FC").ts = { Telemetry.zeroed with rudderDeg := ⟨0, -1000/10000⟩ } ∧
    (gets State.reset "T09F10D232FF7F").ts = Telemetry.zeroed := by decide +kernel

/-- VB14.1, VB14.5. -/
theorem test_autopilot :
    (gets State.reset "T09F1052340101667B").ts =
      { Telemetry.zeroed with apMode := 1, apEngaged := true, apSetpointDeg := ⟨0, 31590/10000⟩ } ∧
    (gets (withTs { Telemetry.zeroed with apMode := 2, apEngaged := true }) "T09F10523404005C3D").ts =
      { Telemetry.zeroed with apMode := 2, apSetpointDeg := quarter } := by decide +kernel

/-- VB14.7, VB14.8: AP_ENGAGED_OTHER. -/
theorem test_autopilot_other :
    (gets State.reset "T09F1052340002FF7F").ts.apEngaged = false ∧
    (gets { State.reset with cfg := { Config.atReset with apEngagedOther := .setTrue } }
      "T09F1052340002FF7F").ts.apEngaged = true := by decide +kernel

/-- VB3.1: an unknown PGN. -/
theorem test_unknown_pgn : (gets State.reset "T1823FF0022710").ts = Telemetry.zeroed := by decide +kernel

/-! Witnesses: for each statement with hypotheses, a state and operands that meet them, one for each clause. -/

/-- The gear line `T09F2052320002`. -/
def gearLine : List Byte := asc "T09F2052320002"

/-- Its frame. -/
def gearFrame : CanFrame := frameOf 0x09F20523 [0, 2]

/-- A frame of a length, all bytes 0. -/
def zeros (n : Nat) : CanFrame := frameOf 0x09F20523 (List.replicate n 0)

/-- A channel with other accumulator counts, at gate time 5000. -/
def counted (c1 c2 : Nat) : Chan :=
  ⟨5000, ringOf [10, 126/10, 132/10, 20] 0 1 true, ringOf [126/10] 3 1 false, ringOf [] 4 0 false, ⟨rat 30, c1⟩,
    ⟨rat (126/10), c2⟩⟩

theorem test_witness_DecodeOfEncode :
    Instr.wf false (.cmdTx 7 0xFF 3 true 62832) = true ∧ Instr.wf true (.tline8 0xFFFFFFFF 0 1 2 3 4 5 6 7) = true ∧
    Instr.wf false (.pgn127493 (frameOf 0xFFF205FF [0, 2])) = true ∧ Instr.wf true (.ignore (zeros 0)) = false ∧
    Instr.wf true (.ignore (frameOf 0x0BF20523 [])) = true := by decide

theorem test_witness_DecodedIsWellFormed :
    gearFrame.wf = true ∧ decode false (.can gearFrame) = .ok (.pgn127493 gearFrame) ∧
    decode true (.line gearLine) = .ok (.tline2 0x09F20523 0 2) := by decide

theorem test_witness_EncodeOfDecodedLine :
    decodeLine (asc "T09f205232000a") = .ok (.tline2 0x09F20523 0x00 0x0A) := by decide

/-- For LineIdentifier and LinePayload: no payload, and a full one. -/
theorem test_witness_LineIdentifier_LinePayload :
    parseLine (asc "T1FFFFFFF0") = .ok (frameOf 0x1FFFFFFF []) ∧
    parseLine (asc "T09F2052380001020304050607") = .ok (frameOf 0x09F20523 [0, 1, 2, 3, 4, 5, 6, 7]) := by decide

theorem test_witness_LineCaseIrrelevant :
    (asc "T09f205232000a").map upcase = (asc "T09F205232000A").map upcase ∧
    asc "T09f205232000a" ≠ asc "T09F205232000A" := by decide

theorem test_witness_SenderBitsIgnored :
    gearFrame.id &&& canMask State.reset.cfg.pgnUseEdp = 0xFFF205EE &&& canMask State.reset.cfg.pgnUseEdp := by decide

/-- One state for each clause: an operation, nothing valid, nothing at all. -/
theorem test_witness_StepRunsDecoded :
    State.reset.cfg.ok = true ∧ ({ State.reset with inp := [PortIn.rx 0x54] }).inp = [PortIn.rx 0x54] ∧
    decode State.reset.cfg.pgnUseEdp (.port (PortIn.rx 0x54)) = .ok (.rxbyte 0x54) ∧
    PortIn.quiet.rst = false ∧ PortIn.quiet.opValid = false ∧ State.reset.inp = [] := by decide

theorem test_witness_LevelsRunDecoded :
    decode false (.byte 0x0A) = .ok .eolLf ∧ decode false (.byte 0x0B) = .ok (.data 0x0B) ∧
    0 < (State.reset.withLine gearLine).wr ∧
    decode false (.line ((State.reset.withLine gearLine).lb.chars 14)) = .ok (.tline2 0x09F20523 0 2) ∧
    parseLine gearLine = .ok gearFrame ∧ decode false (.line gearLine) = .ok (.tline2 0x09F20523 0 2) := by decide

theorem test_witness_EveryOperationCompletes : Instr.sample 0 ≠ .rsvd := by decide

theorem test_witness_ResetReturnsCore_ResetMeetsInvariants :
    before8.cfg.chans[0]? = some chanA ∧ before8.cfg.ok = true := by decide

/-- ChunkingInvariant: a buffer with a pending character. -/
theorem test_witness_ChunkingInvariant :
    ({ State.reset with lb := [(0, 0x54)], wr := 1 }).lb.wf = true ∧
    framesOfLines (linesOf 26 [0x54] (asc "09F2052320002" ++ [0x0D, 0x0A])) = [frameOf 0x09F20523 [0, 2]] := by decide

theorem test_witness_EmptyLineIgnored : State.reset.wr = 0 := rfl

theorem test_witness_MalformedLineDropped :
    0 < (State.reset.withLine (asc "T")).wr ∧ parseLine ((State.reset.withLine (asc "T")).lb.chars 1) = .error .count := by
  decide

/-- The last free slot. -/
theorem test_witness_DataByteStored :
    (0x0B : Byte) ≠ 0x0D ∧ (0x0B : Byte) ≠ 0x0A ∧ ({ State.reset with wr := 25 }).wr < State.reset.cfg.lineCap ∧
    State.reset.lb.wf = true := by decide

theorem test_witness_OverflowDiscards :
    (0x00 : Byte) ≠ 0x0D ∧ (0x00 : Byte) ≠ 0x0A ∧ ({ State.reset with wr := 26 }).wr = State.reset.cfg.lineCap := by decide

/-- For FedLineIsDecoded and FramesIndependentOfPast: two states that differ in the buffer. -/
theorem test_witness_FedLineIsDecoded_FramesIndependentOfPast :
    State.reset.wr = 0 ∧ State.reset.lb.wf = true ∧ 26 ≤ State.reset.cfg.lineCap ∧ parseLine gearLine = .ok gearFrame ∧
    Memory.wf [(0, 0x54), (3, 0x30)] = true ∧ ({ State.reset with lb := [(0, 0x54), (3, 0x30)] }).wr = 0 := by decide

/-- A short frame and one of the least length, for each decoder. -/
theorem test_witness_decoder_lengths :
    ([(2, 3), (3, 4), (1, 2), (4, 5), (5, 6)].all fun x => decide ((zeros x.1).len < x.2) && decide (x.2 ≤ (zeros x.2).len)) =
      true := by decide

/-- Each sentinel, and its neighbour. -/
theorem test_witness_decoder_sentinels :
    le16 (frameOf 0 [0, 0xFF, 0x7F]) 1 = 0x7FFF ∧ le16 (frameOf 0 [0, 0xFE, 0x7F]) 1 ≠ 0x7FFF ∧
    le16 (frameOf 0 [0, 0, 0xFF, 0xFF]) 2 = 0xFFFF ∧ byteAt (frameOf 0 [0, 0xFF]) 1 = 0xFF := by decide

/-- HeadingDecodedAndSeeds: short, sentinel, and a measurement at the sentinel's neighbour. -/
theorem test_witness_HeadingDecodedAndSeeds :
    (zeros 2).len < 3 ∧ 3 ≤ (frameOf 0 [0, 0xFF, 0x7F]).len ∧ le16 (frameOf 0 [0, 0xFF, 0x7F]) 1 = 0x7FFF ∧
    le16 (frameOf 0 [0, 0x00, 0x80]) 1 ≠ 0x7FFF ∧ State.reset.ts.apEngaged = false := by decide

/-- WindDecoded: the masked references 0 to 4. -/
theorem test_witness_WindDecoded :
    [0, 1, 2, 3, 4, 0xFA].map (fun b => byteAt (frameOf 0 [0, 0, 0, 0, 0, b]) 5 &&& State.reset.cfg.windRefMask.toNat) =
      [0, 1, 2, 3, 4, 0xFA] := by decide

theorem test_witness_UnknownPgnIgnored :
    pgnOfId State.reset.cfg.pgnUseEdp 0x1823FF00 ∉
      [128259, 127488, 127493, 127508, 127506, 130306, 127250, 127245, 127237] := by decide

theorem test_witness_ShortFrameUpdatesNothing : (zeros 1).len < minLen (Decoder.ofPgn (pgnOfId false (zeros 1).id)) := by
  decide

/-- ClosedGateKeepsChannel: at the gate time, and one tick before the interval has passed. -/
theorem test_witness_ClosedGateKeepsChannel :
    before8.clockInOrder 5000 ∧ before8.clockInOrder 5999 ∧
    before8.cfg.chans[0]? = some chanA ∧ before8.ag[0]? = some (counted 2 1) ∧
    5000 - (counted 2 1).lastT < chanA.ivl ∧ 5999 - (counted 2 1).lastT < chanA.ivl := by
  unfold State.clockInOrder; decide +kernel

/-- OpenGateStoresFinePoint and CascadeDownsamples: exactly when the interval has passed. -/
theorem test_witness_OpenGateStoresFinePoint :
    before8.clockInOrder 6000 ∧ before8.cfg.chans[0]? = some chanA ∧ before8.ag[0]? = some (counted 2 1) ∧
    chanA.ivl ≤ 6000 - (counted 2 1).lastT := by unfold State.clockInOrder; decide +kernel

/-- CascadeDownsamples: each clause's counts, at N1 = 3 and N2 = 2. -/
theorem test_witness_CascadeDownsamples :
    (counted 1 1).acc1.cnt + 1 ≠ before8.cfg.n1 ∧ (counted 2 0).acc1.cnt + 1 = before8.cfg.n1 ∧
    (counted 2 0).acc2.cnt + 1 ≠ before8.cfg.n2 ∧ (counted 2 1).acc2.cnt + 1 = before8.cfg.n2 := by decide

/-- RingHoldsMostRecent: the three rings of one channel, whose SAMPLE stores in each, and a ring about to wrap. -/
theorem test_witness_RingHoldsMostRecent :
    before8.clockInOrder 9000 ∧ (counted 2 1).fine.Inv chanA.cap ∧ (counted 2 1).medium.Inv chanA.cap ∧
    (counted 2 1).coarse.Inv chanA.cap ∧ (ringOf [1, 2, 3] 1 3 false).Inv chanA.cap ∧
    (counted 2 1).fine.count chanA.cap = 4 ∧ (ringOf [1, 2, 3] 1 3 false).count chanA.cap = 3 := by
  unfold State.clockInOrder Series.Inv; decide +kernel

theorem test_witness_SampleRowsInOrder :
    before8.clockInOrder 9000 ∧ before8.ag.length = before8.cfg.chans.length := by
  unfold State.clockInOrder; decide +kernel

theorem test_witness_SinkNeverTouchesState : Instr.sample 9000 ≠ .rsvd := by decide

theorem test_witness_ClockBackStoresNothing : counted 2 1 ∈ before8.ag ∧ 4999 < (counted 2 1).lastT := by
  decide +kernel

theorem test_witness_CommandEmitsLine :
    [0x0D] = (match State.reset.cfg.txEol with | .cr => [0x0D] | .lf => [0x0A] | .crlf => ([0x0D, 0x0A] : List Byte)) := by
  decide

theorem test_witness_WireUnitsRounded :
    (0 : Rat) ≤ 0 ∧ (0 : Rat) ≤ 359999 / 1000 ∧ (359999 / 1000 : Rat) < 360 ∧ (0 : Nat) ≤ 62831 ∧ 62831 ≤ 62831 ∧
    SignedCount (-32768) ∧ (-32768 : Int) < 0 ∧ SignedCount (-1) := by unfold SignedCount; decide +kernel

/-- SetpointNormalised: the angles of the least count, of -1 and of the largest. -/
theorem test_witness_SetpointNormalised :
    IsAngle ⟨360, -32768 / 10000⟩ ∧ IsAngle ⟨360, -1 / 10000⟩ ∧ IsAngle ⟨0, 32766 / 10000⟩ := by
  unfold IsAngle SignedCount
  exact ⟨⟨-32768, by decide, by decide +kernel⟩, ⟨-1, by decide, by decide +kernel⟩, ⟨32766, by decide, by decide +kernel⟩⟩

/-- CommandRoundTrip: 181 degrees; the normalised value of a negative setpoint lies just below the bound. -/
theorem test_witness_CommandRoundTrip :
    (Val.ofRat 181).r = 0 ∧ (|quarter.p| ≤ 10 ^ 12 ∧ |quarter.r| ≤ 10 ^ 12) ∧
    mod360 (Val.ofRat 181) = Val.ofRat 181 ∧ toReal (Val.ofRat 181) < 18773821 / 100000 ∧
    mod360 (Val.ofRat (-1722618 / 10000)) = Val.ofRat (1877382 / 10000) ∧
    toReal (Val.ofRat (1877382 / 10000)) < 18773821 / 100000 ∧
    State.reset.wr = 0 ∧ State.reset.lb.wf = true ∧ 26 ≤ State.reset.cfg.lineCap := by
  refine ⟨by decide +kernel, by decide +kernel, by decide +kernel, ?_, by decide +kernel, ?_, by decide +kernel⟩ <;>
    (simp only [toReal, Val.ofRat]; norm_num)

/-- HighSetpointReceivedLow: the ends of its range, and a register's angle. -/
theorem test_witness_HighSetpointReceivedLow :
    wireUnits (mod360 (deg 32768)) = 32768 ∧ wireUnits (mod360 (Val.ofRat (359999 / 1000))) = 62832 ∧
    wireUnits (mod360 (degNorm (-1))) = 62831 ∧ State.reset.wr = 0 ∧ State.reset.lb.wf = true ∧
    26 ≤ State.reset.cfg.lineCap := by decide +kernel

theorem test_witness_SentinelSetpointNotReceived :
    wireUnits (mod360 (Val.ofRat (18774 / 100))) = 32767 ∧ State.reset.wr = 0 ∧ State.reset.lb.wf = true ∧
    26 ≤ State.reset.cfg.lineCap := by decide +kernel

theorem test_witness_ValuesAreNumbers : toReal Val.zero = toReal (Val.ofRat 0) := rfl

theorem test_witness_AngleConversion : SignedCount (-32768) ∧ SignedCount (-1) ∧ SignedCount 0 ∧ SignedCount 32766 := by
  unfold SignedCount; decide

/-- The state of the vectors' row 8 meets the state invariant, and its SAMPLE answers a next state. -/
theorem test_witness_StepKeepsInvariant :
    State.Inv { before8 with inp := [PortIn.sampleAt 9000] } ∧
    ∃ t, step { before8 with inp := [PortIn.sampleAt 9000] } = .next t := by
  refine ⟨⟨by decide, by decide, rfl, by decide, .cons ?_ .nil⟩, _, rfl⟩
  unfold Chan.Inv Series.Inv
  decide +kernel

/-- Registers of which one holds a decoded value, and a step. -/
theorem test_witness_StepKeepsLegalTelemetry :
    Telemetry.Legal before8.cfg.telemReset before8.ts ∧ ∃ t, step before8 = .next t := by
  refine ⟨⟨.inl rfl, .inl rfl, .inr ⟨1200, by unfold SignedCount; decide, by decide +kernel⟩, .inl rfl, .inl rfl,
    .inl rfl, .inl rfl, .inl rfl, .inl rfl, .inl rfl, .inl rfl, .inl rfl, rfl⟩, _, rfl⟩

theorem test_witness_ConfigurationNeverChanges : ∃ t, step { State.reset with inp := [PortIn.rx 0x54] } = .next t :=
  ⟨_, rfl⟩

/-- StepCompletesExactly: the reserved operation is presented, and is not when RESET overrides it. -/
theorem test_witness_StepCompletesExactly :
    step { State.reset with inp := [{ PortIn.quiet with opValid := true, op := 3 }] } = .refused .reservedOperation ∧
    ∃ t, step { State.reset with inp := [{ PortIn.quiet with rst := true, opValid := true, op := 3 }] } = .next t :=
  ⟨rfl, _, rfl⟩

/-- WritersOfState: a frame changes a register, and a SAMPLE the aggregator. -/
theorem test_witness_WritersOfState :
    (gets State.reset "T09F2052320002").ts ≠ State.reset.ts ∧
    (stepped { before8 with inp := [PortIn.sampleAt 9000] }).ag ≠ before8.ag := by decide +kernel

/-- WrappedStays: a step on a channel whose fine ring has wrapped. -/
theorem test_witness_WrappedStays :
    (∃ t, step { before8 with inp := [PortIn.sampleAt 9000] } = .next t) ∧ (PortIn.sampleAt 9000).rst = false ∧
    before8.ag[0]? = some (counted 2 1) ∧ (counted 2 1).fine.wrapped = true :=
  ⟨⟨_, rfl⟩, rfl, by decide +kernel, rfl⟩

end Sys2Proof.Tests
end

section
/-! The values as real numbers: what `toReal` makes of the operations of `Val`, and that pi's irrationality keeps the two
parts of a value apart (00_scope.md R13, R17). -/

namespace Sys2Proof.Proofs

open Sys2Proof Sys2Proof.Machine

theorem toReal_add (v w : Val) : toReal (v.add w) = toReal v + toReal w := by
  simp only [toReal, Val.add]
  push_cast
  ring

/-- At `n = 0` too: both divisions give 0. -/
theorem toReal_divNat (v : Val) (n : Nat) : toReal (v.divNat n) = toReal v / n := by
  simp only [toReal, Val.divNat]
  push_cast
  ring

/-- DEG_PER_RAD, the unit of a value's second part. -/
theorem irrational_degPerRad : Irrational (180 / Real.pi) :=
  irrational_pi.natCast_div (m := 180) (by decide)

/-- Different coefficients would make a nonzero rational multiple of DEG_PER_RAD the difference of two rationals. -/
theorem r_eq_of_toReal_eq {v w : Val} (h : toReal v = toReal w) : v.r = w.r := by
  by_contra hr
  have hirr : Irrational (((v.r - w.r : ℚ) : ℝ) * (180 / Real.pi)) :=
    irrational_degPerRad.ratCast_mul (sub_ne_zero.mpr hr)
  refine hirr ⟨w.p - v.p, ?_⟩
  unfold toReal at h
  push_cast
  linarith

theorem p_eq_of_toReal_eq {v w : Val} (h : toReal v = toReal w) : v.p = w.p := by
  have hr := r_eq_of_toReal_eq h
  unfold toReal at h
  rw [hr] at h
  exact_mod_cast add_right_cancel h

theorem toReal_injective : Function.Injective toReal := by
  rintro ⟨p, r⟩ ⟨q, t⟩ h
  obtain rfl : p = q := p_eq_of_toReal_eq h
  obtain rfl : r = t := r_eq_of_toReal_eq h
  rfl

/-- Settles O51: the two parts of a value are fixed by its real number, and sum and quotient act on each part. -/
theorem valuesAreNumbers : Obligations.ValuesAreNumbers :=
  ⟨fun _ _ h => toReal_injective h, toReal_add, toReal_divNat⟩

end Sys2Proof.Proofs
end

section
/-! One channel's part of a SAMPLE as a relation between the channel before and after, and the rings' invariant and points
under one more point (10_state.md R31 to R33, 43_aggregator.md R201 to R206). -/

namespace Sys2Proof.Proofs

open Sys2Proof Sys2Proof.Machine

/-! ## Rings -/

theorem empty_inv {cap : Nat} (h : 1 ≤ cap) : (Series.empty cap).Inv cap := by
  refine ⟨List.length_replicate, h, fun i hi => ?_⟩
  simp [Series.empty, hi]

/-- A read of the slots after a store: the new point at the index, the old slot elsewhere. -/
theorem push_slots_getD {cap : Nat} {r : Series} (v : Val) (h : r.Inv cap) (i : Nat) :
    (r.push cap v).slots.getD i none = if i = r.idx then some v else r.slots.getD i none := by
  obtain ⟨hlen, hidx, -⟩ := h
  by_cases hi : i = r.idx
  · simp [hi, hlen, hidx]
  · simp [List.getElem?_set_ne (Ne.symm hi), hi]

/-- The index either moves on, or returns to 0 from the last slot. -/
theorem next_idx_cases {cap idx : Nat} (h : idx < cap) :
    (idx + 1 < cap ∧ (idx + 1) % cap = idx + 1) ∨ (idx + 1 = cap ∧ (idx + 1) % cap = 0) := by
  rcases Nat.lt_or_ge (idx + 1) cap with hlt | hge
  · exact .inl ⟨hlt, Nat.mod_eq_of_lt hlt⟩
  · have hcap : idx + 1 = cap := by omega
    exact .inr ⟨hcap, by rw [hcap, Nat.mod_self]⟩

theorem push_inv {cap : Nat} {r : Series} (v : Val) (h : r.Inv cap) : (r.push cap v).Inv cap := by
  have hget := push_slots_getD v h
  obtain ⟨hlen, hidx, hslots⟩ := h
  refine ⟨by simp [hlen], Nat.mod_lt _ (by omega), fun i hi => ?_⟩
  rw [hget, Series.push_wrapped, Series.push_idx]
  by_cases hnew : i = r.idx
  · rcases next_idx_cases hidx with ⟨-, hmod⟩ | ⟨-, hmod⟩ <;> simp [hnew, hmod]
  · rw [if_neg hnew, hslots i hi]
    rcases next_idx_cases hidx with ⟨-, hmod⟩ | ⟨hcap, hmod⟩
    · have : i < r.idx + 1 ↔ i < r.idx := by omega
      simp [hmod, this]
    · have : i < r.idx := by omega
      simp [hmod, this]

theorem push_wrapped_of_wrapped {r : Series} (cap : Nat) (v : Val) (h : r.wrapped = true) :
    (r.push cap v).wrapped = true := by
  simp [h]

/-! ## The points of a ring in age order -/

theorem points_of_not_wrapped {cap : Nat} {r : Series} (h : r.wrapped = false) : r.points cap = r.slots.take r.idx := by
  simp [Series.points, h]

theorem points_of_wrapped {cap : Nat} {r : Series} (h : r.wrapped = true) :
    r.points cap = (List.range cap).map fun k => r.slots.getD ((r.idx + k) % cap) none := by
  simp [Series.points, h]

theorem count_of_not_wrapped {cap : Nat} {r : Series} (h : r.wrapped = false) : r.count cap = r.idx := by
  simp [Series.count, h]

theorem count_of_wrapped {cap : Nat} {r : Series} (h : r.wrapped = true) : r.count cap = cap := by
  simp [Series.count, h]

/-- A ring that has just returned to 0 lists its slots as they stand. -/
theorem points_of_wrapped_at_zero {cap : Nat} {r : Series} (h : r.wrapped = true) (hidx : r.idx = 0)
    (hlen : r.slots.length = cap) : r.points cap = r.slots := by
  rw [points_of_wrapped h]
  refine List.ext_getElem (by simp [hlen]) fun k hk hk' => ?_
  have hmod : k % cap = k := Nat.mod_eq_of_lt (by omega)
  simp [hidx, hmod, hk']

/-- A store just past the first `i` elements makes it the last of the first `i + 1`. -/
theorem take_succ_set {α : Type} {l : List α} {i : Nat} (a : α) (h : i < l.length) :
    (l.set i a).take (i + 1) = l.take i ++ [a] := by
  rw [List.take_add_one, List.take_set_of_le (Nat.le_refl i), List.getElem?_set_self h]
  rfl

/-- The first round of a ring: the point joins, and none leaves. -/
theorem push_points_of_not_wrapped {cap : Nat} {r : Series} (v : Val) (h : r.Inv cap) (hw : r.wrapped = false) :
    (r.push cap v).points cap = r.points cap ++ [some v] := by
  obtain ⟨hlen, hidx, -⟩ := h
  rw [points_of_not_wrapped hw, ← take_succ_set (some v) (by omega)]
  rcases next_idx_cases hidx with ⟨-, hmod⟩ | ⟨hcap, hmod⟩
  · rw [points_of_not_wrapped (by simp [hw, hmod]), Series.push_idx, hmod, Series.push_slots]
  · rw [points_of_wrapped_at_zero (by simp [hmod]) (by simp [hmod]) (by simp [hlen]), Series.push_slots,
      List.take_of_length_le (by simp [hlen, hcap])]

/-- A full ring: the slot at the index, which held the oldest point, holds the newest. -/
theorem push_points_of_wrapped {cap : Nat} {r : Series} (v : Val) (h : r.Inv cap) (hw : r.wrapped = true) :
    (r.push cap v).points cap = (r.points cap).tail ++ [some v] := by
  have hget := push_slots_getD v h
  obtain ⟨-, hidx, -⟩ := h
  obtain ⟨n, rfl⟩ : ∃ n, cap = n + 1 := ⟨cap - 1, by omega⟩
  have hshift (k : Nat) : ((r.idx + 1) % (n + 1) + k) % (n + 1) = (r.idx + (k + 1)) % (n + 1) := by
    rw [Nat.mod_add_mod, Nat.add_assoc, Nat.add_comm 1 k]
  have hlast : (r.idx + (n + 1)) % (n + 1) = r.idx := by
    rw [Nat.add_mod_right, Nat.mod_eq_of_lt hidx]
  have hother {k : Nat} (hk : k < n) : (r.idx + (k + 1)) % (n + 1) ≠ r.idx := by
    rcases Nat.lt_or_ge (r.idx + (k + 1)) (n + 1) with hlt | hge
    · rw [Nat.mod_eq_of_lt hlt]; omega
    · rw [Nat.mod_eq_sub_mod hge, Nat.mod_eq_of_lt (by omega)]; omega
  rw [points_of_wrapped (push_wrapped_of_wrapped _ v hw), List.range_succ, List.map_append, List.map_singleton,
    points_of_wrapped hw, List.range_succ_eq_map, List.map_cons, List.tail_cons, List.map_map]
  congr 1
  · refine List.map_congr_left fun k hk => ?_
    rw [hget, Series.push_idx, hshift, if_neg (hother (List.mem_range.mp hk))]
    rfl
  · rw [hget, Series.push_idx, hshift, hlast, if_pos rfl]

theorem push_joined {cap : Nat} {r : Series} (v : Val) (h : r.Inv cap) : Machine.Joined cap v r (r.push cap v) := by
  unfold Machine.Joined
  have ⟨_, hidx, _⟩ := h
  cases hw : r.wrapped with
  | false => rw [count_of_not_wrapped hw, if_pos hidx, push_points_of_not_wrapped v h hw]
  | true => rw [count_of_wrapped hw, if_neg (Nat.lt_irrefl cap), push_points_of_wrapped v h hw]

/-! ## One channel -/

/-- The point that completes the medium accumulator: the mean of its points and of the one sampled. -/
def mediumPoint (cfg : Config) (t : Telemetry) (c : ChanCfg) (ch : Chan) : Val :=
  (ch.acc1.sum.add (numeric t c.src)).divNat cfg.n1

/-- What a SAMPLE makes of one channel, by how far the sampled point cascades. -/
inductive Sampled (cfg : Config) (t : Telemetry) (now : Nat) (c : ChanCfg) (ch : Chan) : Chan → Prop
  /-- the gate is closed -/
  | closed (hgate : ¬ c.ivl ≤ now - ch.lastT) : Sampled cfg t now c ch ch
  /-- the point is stored in the fine ring alone -/
  | fine (hgate : c.ivl ≤ now - ch.lastT) (hn1 : ch.acc1.cnt + 1 ≠ cfg.n1) :
    Sampled cfg t now c ch { ch with
      lastT := now
      fine := ch.fine.push c.cap (numeric t c.src)
      acc1 := ⟨ch.acc1.sum.add (numeric t c.src), ch.acc1.cnt + 1⟩ }
  /-- it completes the medium accumulator -/
  | medium (hgate : c.ivl ≤ now - ch.lastT) (hn1 : ch.acc1.cnt + 1 = cfg.n1) (hn2 : ch.acc2.cnt + 1 ≠ cfg.n2) :
    Sampled cfg t now c ch { ch with
      lastT := now
      fine := ch.fine.push c.cap (numeric t c.src)
      acc1 := Acc.empty
      medium := ch.medium.push c.cap (mediumPoint cfg t c ch)
      acc2 := ⟨ch.acc2.sum.add (mediumPoint cfg t c ch), ch.acc2.cnt + 1⟩ }
  /-- it completes both accumulators -/
  | coarse (hgate : c.ivl ≤ now - ch.lastT) (hn1 : ch.acc1.cnt + 1 = cfg.n1) (hn2 : ch.acc2.cnt + 1 = cfg.n2) :
    Sampled cfg t now c ch { ch with
      lastT := now
      fine := ch.fine.push c.cap (numeric t c.src)
      acc1 := Acc.empty
      medium := ch.medium.push c.cap (mediumPoint cfg t c ch)
      acc2 := Acc.empty
      coarse := ch.coarse.push c.cap ((ch.acc2.sum.add (mediumPoint cfg t c ch)).divNat cfg.n2) }

/-- The sink's answers are no part of it (43_aggregator.md R211). -/
theorem sampleChan_sampled (cfg : Config) (t : Telemetry) (now : Nat) (c : ChanCfg) (ch : Chan) (io : SinkIO) :
    Sampled cfg t now c ch (sampleChan cfg t now c (ch, io)).1 := by
  rcases sampleChan_cases cfg t now c (ch, io) with ⟨hopen, heq⟩ | ⟨hclosed, heq⟩
  · have hgate := (gateOpen_iff ..).mp hopen
    rw [heq]
    rcases storeFine_cases ⟨c, cfg.n1, cfg.n2, now⟩ (numeric t c.src) ({ ch with lastT := now }, io) with
      ⟨hn1, hfine⟩ | ⟨hn1, hfine⟩
    · rw [hfine]
      rcases storeMedium_cases ⟨c, cfg.n1, cfg.n2, now⟩ (mediumPoint cfg t c ch)
          ({ ch with lastT := now, fine := ch.fine.push c.cap (numeric t c.src), acc1 := Acc.empty },
            io.sendRow c.name .fine now (numeric t c.src)) with ⟨hn2, hmedium⟩ | ⟨hn2, hmedium⟩
      · exact hmedium ▸ .coarse hgate hn1 hn2
      · exact hmedium ▸ .medium hgate hn1 hn2
    · rw [hfine]
      exact .fine hgate hn1
  · rw [heq]
    exact .closed fun hgate => by simp [(gateOpen_iff ..).mpr hgate] at hclosed

theorem sampled_inv {cfg : Config} {t : Telemetry} {now : Nat} {c : ChanCfg} {ch ch' : Chan}
    (h : Sampled cfg t now c ch ch') (hinv : ch.Inv cfg c) : ch'.Inv cfg c := by
  obtain ⟨hfine, hmedium, hcoarse, hcnt1, hcnt2⟩ := hinv
  cases h with
  | closed => exact ⟨hfine, hmedium, hcoarse, hcnt1, hcnt2⟩
  | fine _ hn1 => exact ⟨push_inv _ hfine, hmedium, hcoarse, Nat.lt_of_le_of_ne hcnt1 hn1, hcnt2⟩
  | medium _ _ hn2 =>
    exact ⟨push_inv _ hfine, push_inv _ hmedium, hcoarse, Nat.zero_lt_of_lt hcnt1, Nat.lt_of_le_of_ne hcnt2 hn2⟩
  | coarse =>
    exact ⟨push_inv _ hfine, push_inv _ hmedium, push_inv _ hcoarse, Nat.zero_lt_of_lt hcnt1, Nat.zero_lt_of_lt hcnt2⟩

/-- How a channel may move on from another short of a RESET: no gate time back, no wrapped ring unwrapped. -/
def Advances (ch ch' : Chan) : Prop :=
  ch.lastT ≤ ch'.lastT ∧ (ch.fine.wrapped = true → ch'.fine.wrapped = true) ∧
    (ch.medium.wrapped = true → ch'.medium.wrapped = true) ∧ (ch.coarse.wrapped = true → ch'.coarse.wrapped = true)

theorem advances_refl (ch : Chan) : Advances ch ch := ⟨Nat.le_refl _, id, id, id⟩

theorem sampled_advances {cfg : Config} {t : Telemetry} {now : Nat} {c : ChanCfg} {ch ch' : Chan}
    (h : Sampled cfg t now c ch ch') (hclock : ch.lastT ≤ now) : Advances ch ch' := by
  cases h with
  | closed => exact advances_refl ch
  | fine => exact ⟨hclock, push_wrapped_of_wrapped _ _, id, id⟩
  | medium => exact ⟨hclock, push_wrapped_of_wrapped _ _, push_wrapped_of_wrapped _ _, id⟩
  | coarse => exact ⟨hclock, push_wrapped_of_wrapped _ _, push_wrapped_of_wrapped _ _, push_wrapped_of_wrapped _ _⟩

/-- The three rings at an open gate (10_state.md R33). -/
theorem sampled_rings {cfg : Config} {t : Telemetry} {now : Nat} {c : ChanCfg} {ch ch' : Chan}
    (h : Sampled cfg t now c ch ch') (hgate : c.ivl ≤ now - ch.lastT)
    (hfine : ch.fine.Inv c.cap) (hmedium : ch.medium.Inv c.cap) (hcoarse : ch.coarse.Inv c.cap) :
    Machine.Joined c.cap (numeric t c.src) ch.fine ch'.fine ∧
      (if ch.acc1.cnt + 1 = cfg.n1 then
        Machine.Joined c.cap (mediumPoint cfg t c ch) ch.medium ch'.medium ∧
          (if ch.acc2.cnt + 1 = cfg.n2 then
            Machine.Joined c.cap ((ch.acc2.sum.add (mediumPoint cfg t c ch)).divNat cfg.n2) ch.coarse ch'.coarse
          else ch'.coarse.points c.cap = ch.coarse.points c.cap)
      else
        ch'.medium.points c.cap = ch.medium.points c.cap ∧ ch'.coarse.points c.cap = ch.coarse.points c.cap) := by
  refine ⟨?_, ?_⟩
  · cases h with
    | closed hclosed => exact absurd hgate hclosed
    | fine | medium | coarse => exact push_joined _ hfine
  · cases h with
    | closed hclosed => exact absurd hgate hclosed
    | fine _ hn1 => rw [if_neg hn1]; exact ⟨rfl, rfl⟩
    | medium _ hn1 hn2 => rw [if_pos hn1, if_neg hn2]; exact ⟨push_joined _ hmedium, rfl⟩
    | coarse _ hn1 hn2 => rw [if_pos hn1, if_pos hn2]; exact ⟨push_joined _ hmedium, push_joined _ hcoarse⟩

/-! ## All channels -/

/-- Each channel of the aggregator is sampled under its own configuration; an entry beyond the configuration stays. -/
theorem sampleChans_getElem? (cfg : Config) (t : Telemetry) (now : Nat) {cs : List ChanCfg} {chs : List Chan} {io : SinkIO}
    {k : Nat} {ch : Chan} (h : chs[k]? = some ch) :
    ∃ ch', (sampleChans cfg t now cs chs io).1[k]? = some ch' ∧
      ((∃ c, cs[k]? = some c ∧ Sampled cfg t now c ch ch') ∨ (cs[k]? = none ∧ ch' = ch)) := by
  induction cs generalizing chs io k with
  | nil => exact ⟨ch, h, .inr ⟨rfl, rfl⟩⟩
  | cons c cs ih =>
    cases chs with
    | nil => cases h
    | cons ch₀ chs =>
      cases k with
      | zero =>
        obtain rfl : ch₀ = ch := by simpa using h
        exact ⟨_, rfl, .inl ⟨c, rfl, sampleChan_sampled cfg t now c ch₀ io⟩⟩
      | succ k => exact ih h

theorem sampleChans_inv (cfg : Config) (t : Telemetry) (now : Nat) {cs : List ChanCfg} {chs : List Chan} (io : SinkIO)
    (h : List.Forall₂ (Chan.Inv cfg) cs chs) :
    List.Forall₂ (Chan.Inv cfg) cs (sampleChans cfg t now cs chs io).1 := by
  induction h generalizing io with
  | nil => exact .nil
  | cons hch _ ih => exact .cons (sampled_inv (sampleChan_sampled ..) hch) (ih _)

/-- Settles O41: a store at an open gate joins each ring it reaches, whatever the ring's state. -/
theorem ringHoldsMostRecent : Obligations.RingHoldsMostRecent := by
  rintro s now k c ch v m hclock hc hch hgate hfine hmedium hcoarse rfl rfl
  rcases execSample_cases now s with ⟨⟨ch₀, hmem, hlt⟩, -⟩ | ⟨-, hexec⟩
  · exact absurd (hclock ch₀ hmem) (Nat.not_le.mpr hlt)
  · obtain ⟨ch', hch', ⟨c', hc', hsampled⟩ | ⟨hnone, -⟩⟩ :=
      sampleChans_getElem? s.cfg s.ts now (cs := s.cfg.chans) (io := ⟨s.out, s.sinkAns⟩) hch
    · obtain rfl : c = c' := Option.some.inj (hc.symm.trans hc')
      exact ⟨_, ch', hexec, hch', sampled_rings hsampled hgate hfine hmedium hcoarse⟩
    · cases hnone.symm.trans hc

end Sys2Proof.Proofs
end

section
/-! Everything a step that answers a next state can have done, and what every step keeps or leaves to its writers
(10_state.md R21, R25, R32, R35, 43_aggregator.md R200, R212). -/

namespace Sys2Proof.Proofs

open Sys2Proof Sys2Proof.Machine

/-! ## What a step can do -/

/-- The presentations that the PORT level decodes (30_encoding.md R91). -/
theorem decodePort_cases {p : PortIn} {i : Instr} (h : decodePort p = .ok i) :
    (p.rst = true ∧ i = .reset) ∨ (p.opValid = true ∧
      (i = .rxbyte p.rxData ∨ (p.op = 1 ∧ i = .sample p.now) ∨
        i = .cmd p.cmdEngage p.cmdMode p.cmdSetpoint ∨ i = .rsvd)) := by
  unfold decodePort at h
  split at h
  · rename_i hrst
    cases h
    exact .inl ⟨hrst, rfl⟩
  split at h
  · rename_i hvalid
    refine .inr ⟨hvalid, ?_⟩
    split at h
    · cases h; exact .inl rfl
    split at h
    · rename_i hop
      cases h
      exact .inr (.inl ⟨hop, rfl⟩)
    split at h
    · cases h; exact .inr (.inr (.inl rfl))
    · cases h; exact .inr (.inr (.inr rfl))
  · cases h

/-- The states that a step can lead to, one constructor per kind of effect. -/
inductive StepEffect (s : State) : State → Prop
  /-- nothing presented, a terminator at an empty buffer, or a SAMPLE whose clock has gone back -/
  | idle : StepEffect s s.consume
  /-- RESET -/
  | reset {p : PortIn} {rest : List PortIn} (hinp : s.inp = p :: rest) (hrst : p.rst = true) :
    StepEffect s s.consume.resetCore
  /-- a line dropped, by the parser or by an overflow -/
  | dropped : StepEffect s (s.consume.setWr 0)
  /-- a data byte -/
  | stored (b : Byte) (hroom : s.wr < s.cfg.lineCap) : StepEffect s ((s.consume.setLb s.wr b).setWr (s.wr + 1))
  /-- a valid line's frame and its decode -/
  | frame (f : CanFrame) (ts : Telemetry)
    (hrun : runFrame f ((s.consume.setWr 0).emit (.frame f)) = .next (((s.consume.setWr 0).emit (.frame f)).setTs ts)) :
    StepEffect s (((s.consume.setWr 0).emit (.frame f)).setTs ts)
  /-- a SAMPLE whose clock is in order; which rows it sends is left open here -/
  | sample {p : PortIn} {rest : List PortIn} (io : SinkIO) (out : List Output) (ans : List Bool)
    (hinp : s.inp = p :: rest) (hvalid : p.opValid = true) (hop : p.op = 1) (hclock : s.clockInOrder p.now) :
    StepEffect s { s.consume with
      ag := (sampleChans s.cfg s.ts p.now s.cfg.chans s.ag io).1
      out := out
      sinkAns := ans }
  /-- CMD -/
  | command (bytes : List Byte) : StepEffect s (s.consume.emit (.tx bytes))

/-- A terminator's effect, at the byte level of a step. -/
theorem endOfLine_effect {s t : State} (h : endOfLine s.consume = .next t) : StepEffect s t := by
  rcases endOfLine_cases s.consume with ⟨-, heq⟩ | ⟨-, f, -, heq⟩ | ⟨-, d, -, heq⟩ <;> rw [heq] at h
  · cases h; exact .idle
  · obtain ⟨ts, hts⟩ := acceptFrame_next f (s.consume.setWr 0)
    obtain rfl := Host.Outcome.next.inj (hts.symm.trans h)
    exact .frame f ts hts
  · cases h; exact .dropped

/-- A data byte's effect. -/
theorem execData_effect {s t : State} {b : Byte} (h : execData b s.consume = .next t) : StepEffect s t := by
  rcases execData_cases b s.consume with ⟨hroom, heq⟩ | ⟨-, heq⟩ <;> rw [heq] at h <;> cases h
  · exact .stored b hroom
  · exact .dropped

theorem execRxbyte_effect {s t : State} {b : Byte} (h : execRxbyte b s.consume = .next t) : StepEffect s t := by
  rcases execRxbyte_cases b s.consume with ⟨-, heq⟩ | ⟨-, -, heq⟩ <;> rw [heq] at h
  · exact endOfLine_effect h
  · exact execData_effect h

theorem execSample_effect {s t : State} {p : PortIn} {rest : List PortIn} (hinp : s.inp = p :: rest)
    (hvalid : p.opValid = true) (hop : p.op = 1) (h : execSample p.now s.consume = .next t) : StepEffect s t := by
  rcases execSample_cases p.now s.consume with ⟨-, heq⟩ | ⟨hclock, heq⟩ <;> rw [heq] at h <;> cases h
  · exact .idle
  · exact .sample _ _ _ hinp hvalid hop hclock

/-- Every step that answers a next state has one of the effects. -/
theorem step_effect {s t : State} (h : step s = .next t) : StepEffect s t := by
  rcases step_cases s with ⟨-, -, heq⟩ | ⟨-, p, rest, hinp, ⟨i, hi, heq⟩ | ⟨r, -, heq⟩⟩ | ⟨-, heq⟩ <;> rw [heq] at h
  · cases h; exact .idle
  · rcases decodePort_cases hi with ⟨hrst, rfl⟩ | ⟨hvalid, rfl | ⟨hop, rfl⟩ | rfl | rfl⟩
    · cases h; exact .reset hinp hrst
    · exact execRxbyte_effect h
    · exact execSample_effect hinp hvalid hop h
    · cases h; exact .command _
    · cases h
  · cases h; exact .idle
  · cases h

/-! ## The configuration and the writers -/

/-- Settles O56, by the effects: none writes the configuration. -/
theorem configurationNeverChanges : Obligations.ConfigurationNeverChanges := by
  intro s t h
  cases step_effect h <;> rfl

/-- Settles O58: the effects that write TS are those of RESET and of a frame, which is the step's one output; those that
write AG are RESET's and SAMPLE's. -/
theorem writersOfState : Obligations.WritersOfState := by
  intro s t h
  cases step_effect h with
  | idle | dropped | stored | command => exact ⟨fun hne => absurd rfl hne, fun hne => absurd rfl hne⟩
  | reset hinp hrst => exact ⟨fun _ => .inl ⟨_, _, hinp, hrst⟩, fun _ => ⟨_, _, hinp, .inl hrst⟩⟩
  | frame f => exact ⟨fun _ => .inr ⟨f, rfl⟩, fun hne => absurd rfl hne⟩
  | sample _ _ _ hinp hvalid hop => exact ⟨fun hne => absurd rfl hne, fun _ => ⟨_, _, hinp, .inr ⟨hvalid, hop⟩⟩⟩

/-- Settles O59: short of a RESET only a SAMPLE with its clock in order writes a channel. -/
theorem wrappedStays : Obligations.WrappedStays := by
  intro s t k ch h hrst hch
  cases step_effect h with
  | idle | dropped | stored | frame | command => exact ⟨ch, hch, advances_refl ch⟩
  | reset hinp hset => simp [hrst _ _ hinp] at hset
  | @sample p _ io _ _ _ _ _ hclock =>
    obtain ⟨ch', hch', ⟨c, -, hsampled⟩ | ⟨-, rfl⟩⟩ := sampleChans_getElem? s.cfg s.ts p.now (cs := s.cfg.chans) (io := io) hch
    · exact ⟨ch', hch', sampled_advances hsampled (hclock ch (List.mem_of_getElem? hch))⟩
    · exact ⟨ch', hch', advances_refl ch'⟩

/-! ## The state invariant -/

theorem config_ok_iff (c : Config) :
    c.ok = true ↔ 26 ≤ c.lineCap ∧ (∀ ch ∈ c.chans, 1 ≤ ch.cap) ∧ 1 ≤ c.n1 ∧ 1 ≤ c.n2 := by
  simp [Config.ok, and_assoc]

theorem fresh_inv {cfg : Config} {c : ChanCfg} (hcap : 1 ≤ c.cap) (hn1 : 1 ≤ cfg.n1) (hn2 : 1 ≤ cfg.n2) :
    (Chan.fresh c).Inv cfg c :=
  ⟨empty_inv hcap, empty_inv hcap, empty_inv hcap, hn1, hn2⟩

theorem resetOf_inv {c : Config} (h : c.ok = true) : (State.resetOf c).Inv := by
  obtain ⟨-, hcap, hn1, hn2⟩ := (config_ok_iff c).mp h
  refine ⟨h, Nat.zero_le _, Memory.empty_wf, fun x hx => absurd hx List.not_mem_nil, ?_⟩
  exact List.forall₂_map_right_iff.mpr (List.forall₂_same.mpr fun ch hch => fresh_inv (hcap ch hch) hn1 hn2)

/-- Settles O54, by the effects: a stored byte keeps the buffer's clauses, a SAMPLE each channel's. -/
theorem stepKeepsInvariant : Obligations.StepKeepsInvariant := by
  rintro s t ⟨hok, hwr, hwf, hcap, hag⟩ h
  cases step_effect h with
  | idle | command => exact ⟨hok, hwr, hwf, hcap, hag⟩
  | reset => exact resetOf_inv hok
  | dropped | frame => exact ⟨hok, Nat.zero_le _, hwf, hcap, hag⟩
  | stored b hroom =>
    refine ⟨hok, hroom, s.lb.write_wf s.wr b hwf, fun x hx => ?_, hag⟩
    rcases s.lb.write_mem s.wr b x hx with hnew | hold
    · exact hnew ▸ hroom
    · exact hcap x hold
  | sample io => exact ⟨hok, hwr, hwf, hcap, sampleChans_inv s.cfg s.ts _ io hag⟩

end Sys2Proof.Proofs
end

section
/-! The register ranges: every decoded field lies in its range, so every decoder keeps each register at its reset value or
in range (10_state.md R24, R26, R27, 41_pgn_decode.md R165, R168, R169). -/

namespace Sys2Proof.Proofs

open Sys2Proof Sys2Proof.Machine

/-! ## The fields -/

/-- The sentinel 0x7FFF is the one signed count that is no measurement (41_pgn_decode.md R168). -/
theorem signedField_count {raw : BitVec 16} {r : Int} (h : signedField raw = some r) : SignedCount r := by
  unfold signedField at h
  split at h
  · cases h
  · rename_i hne
    cases h
    have hne' : raw.toInt ≠ 32767 := fun he => hne (BitVec.eq_of_toInt_eq he)
    have hlow := BitVec.le_toInt raw
    have hhigh := BitVec.toInt_lt (x := raw)
    norm_num at hlow hhigh
    exact ⟨hlow, by omega⟩

theorem isScaled_of_field {raw : BitVec 16} {k : Rat} {v : Val} (h : (signedField raw).map (scaled k) = some v) :
    IsScaled k v := by
  obtain ⟨r, hr, rfl⟩ := Option.map_eq_some_iff.mp h
  exact ⟨r, signedField_count hr, rfl⟩

theorem isAngle_degNorm {r : Int} (h : SignedCount r) : IsAngle (degNorm r) := by
  refine ⟨r, h, ?_⟩
  unfold degNorm
  split <;> simp [deg, Val.add, Val.ofInt]

theorem isAngle_of_field {raw : BitVec 16} {v : Val} (h : (signedField raw).map degNorm = some v) : IsAngle v := by
  obtain ⟨r, hr, rfl⟩ := Option.map_eq_some_iff.mp h
  exact isAngle_degNorm (signedField_count hr)

theorem isDeg_of_field {raw : BitVec 16} {v : Val} (h : (signedField raw).map deg = some v) :
    ∃ r : Int, SignedCount r ∧ v = ⟨0, (r : Rat) / 10000⟩ := by
  obtain ⟨r, hr, rfl⟩ := Option.map_eq_some_iff.mp h
  exact ⟨r, signedField_count hr, rfl⟩

/-- The largest measurement, a count of 65534, is 16383.5, which rounds up (42_pgn_payloads.md R182). -/
theorem rpm_range_of_field {raw : BitVec 16} {v : Int} (h : (unsignedField raw).map quarterRounded = some v) :
    0 ≤ v ∧ v ≤ 16384 := by
  obtain ⟨r, hr, rfl⟩ := Option.map_eq_some_iff.mp h
  unfold unsignedField at hr
  split at hr
  · cases hr
  · cases hr
    unfold quarterRounded
    omega

theorem soc_range_of_field {b : Byte} {v : Int} (h : (byteField b).map Int.ofNat = some v) : 0 ≤ v ∧ v ≤ 254 := by
  obtain ⟨r, hr, rfl⟩ := Option.map_eq_some_iff.mp h
  unfold byteField at hr
  split at hr
  · cases hr
  · rename_i hne
    cases hr
    have hne' : b.toNat ≠ 255 := fun he => hne (BitVec.eq_of_toNat_eq he)
    have := b.isLt
    exact ⟨Int.natCast_nonneg _, by simp only [Int.ofNat_eq_natCast]; omega⟩

/-! ## The decoders -/

/-- A commit of an optional field: a register at its reset value or in range stays so when the field's values are in
range, an absent field leaving it alone (41_pgn_decode.md R165). -/
theorem reset_or_range_getD {α : Type} {P : α → Prop} {reset current : α} {field : Option α}
    (hcurrent : current = reset ∨ P current) (hfield : ∀ {v}, field = some v → P v) :
    field.getD current = reset ∨ P (field.getD current) := by
  cases field with
  | none => exact hcurrent
  | some v => exact .inr (hfield rfl)

theorem legal_refl (reset : Telemetry) : Telemetry.Legal reset reset :=
  ⟨.inl rfl, .inl rfl, .inl rfl, .inl rfl, .inl rfl, .inl rfl, .inl rfl, .inl rfl, .inl rfl, .inl rfl, .inl rfl, .inl rfl,
    rfl⟩

/-- The registers a result leaves are legal under a state's configuration. -/
def LeavesLegal (s : State) (r : Result) : Prop := ∀ t, r = .next t → Telemetry.Legal s.cfg.telemReset t.ts

theorem leavesLegal_next {s t : State} (h : Telemetry.Legal s.cfg.telemReset t.ts) : LeavesLegal s (.next t) := by
  rintro _ ⟨⟩
  exact h

section
variable {f : CanFrame} {s : State}

theorem execPgn128259_legal (h : Telemetry.Legal s.cfg.telemReset s.ts) : LeavesLegal s (execPgn128259 f s) := by
  unfold execPgn128259
  split
  · exact leavesLegal_next h
  · exact leavesLegal_next { h with stwKn := reset_or_range_getD h.stwKn isScaled_of_field }

theorem execPgn127488_legal (h : Telemetry.Legal s.cfg.telemReset s.ts) : LeavesLegal s (execPgn127488 f s) := by
  unfold execPgn127488
  split
  · exact leavesLegal_next h
  · exact leavesLegal_next { h with rpm := reset_or_range_getD h.rpm rpm_range_of_field }

theorem execPgn127493_legal (h : Telemetry.Legal s.cfg.telemReset s.ts) : LeavesLegal s (execPgn127493 f s) := by
  unfold execPgn127493
  split
  · exact leavesLegal_next h
  · exact leavesLegal_next { h with }

theorem execPgn127508_legal (h : Telemetry.Legal s.cfg.telemReset s.ts) : LeavesLegal s (execPgn127508 f s) := by
  unfold execPgn127508
  split
  · exact leavesLegal_next h
  · exact leavesLegal_next { h with
      battV := reset_or_range_getD h.battV isScaled_of_field
      battA := reset_or_range_getD h.battA isScaled_of_field }

theorem execPgn127506_legal (h : Telemetry.Legal s.cfg.telemReset s.ts) : LeavesLegal s (execPgn127506 f s) := by
  unfold execPgn127506
  split
  · exact leavesLegal_next h
  · exact leavesLegal_next { h with socPct := reset_or_range_getD h.socPct soc_range_of_field }

theorem execPgn130306_legal (h : Telemetry.Legal s.cfg.telemReset s.ts) : LeavesLegal s (execPgn130306 f s) := by
  unfold execPgn130306
  split
  · exact leavesLegal_next h
  dsimp only
  split
  · exact leavesLegal_next { h with
      awsMs := reset_or_range_getD h.awsMs isScaled_of_field
      awaDeg := reset_or_range_getD h.awaDeg isAngle_of_field }
  split
  · exact leavesLegal_next { h with
      twsMs := reset_or_range_getD h.twsMs isScaled_of_field
      twaDeg := reset_or_range_getD h.twaDeg isAngle_of_field }
  · exact leavesLegal_next h

theorem execPgn127250_legal (h : Telemetry.Legal s.cfg.telemReset s.ts) : LeavesLegal s (execPgn127250 f s) := by
  unfold execPgn127250
  split
  · exact leavesLegal_next h
  split
  · exact leavesLegal_next h
  · rename_i r hr
    have hangle := isAngle_degNorm (signedField_count hr)
    refine leavesLegal_next { h with headingDeg := .inr hangle, apSetpointDeg := ?_ }
    dsimp only [State.setTs_ts]
    split
    · exact .inr hangle
    · exact h.apSetpointDeg

theorem execPgn127245_legal (h : Telemetry.Legal s.cfg.telemReset s.ts) : LeavesLegal s (execPgn127245 f s) := by
  unfold execPgn127245
  split
  · exact leavesLegal_next h
  · exact leavesLegal_next { h with rudderDeg := reset_or_range_getD h.rudderDeg isDeg_of_field }

theorem execPgn127237_legal (h : Telemetry.Legal s.cfg.telemReset s.ts) : LeavesLegal s (execPgn127237 f s) := by
  unfold execPgn127237
  split
  · exact leavesLegal_next h
  · exact leavesLegal_next { h with apSetpointDeg := reset_or_range_getD h.apSetpointDeg isAngle_of_field }

/-- Whatever decoder the frame selects. -/
theorem runFrame_legal (h : Telemetry.Legal s.cfg.telemReset s.ts) : LeavesLegal s (runFrame f s) := by
  unfold runFrame runDecoder
  split
  · exact execPgn128259_legal h
  · exact execPgn127488_legal h
  · exact execPgn127493_legal h
  · exact execPgn127508_legal h
  · exact execPgn127506_legal h
  · exact execPgn130306_legal h
  · exact execPgn127250_legal h
  · exact execPgn127245_legal h
  · exact execPgn127237_legal h
  · exact leavesLegal_next h

end

/-- Settles O17: the base case of O54 and O55. -/
theorem resetMeetsInvariants : Obligations.ResetMeetsInvariants :=
  ⟨resetOf_inv (by decide), fun c hc => ⟨resetOf_inv hc, legal_refl c.telemReset⟩⟩

/-- Settles O55, by the effects: RESET writes the reset values, a frame what its decoder commits, no other effect TS. -/
theorem stepKeepsLegalTelemetry : Obligations.StepKeepsLegalTelemetry := by
  intro s t hlegal h
  cases step_effect h with
  | idle | dropped | stored | sample | command => exact hlegal
  | reset => exact legal_refl _
  | frame f ts hrun => exact runFrame_legal (s := (s.consume.setWr 0).emit (.frame f)) hlegal _ hrun

end Sys2Proof.Proofs
end

section
/-! Hexadecimal text: a digit and its character, digit pairs and their bytes, in both directions (30_encoding.md R93, R95,
R97, 44_command_encoder.md R236). -/

namespace Sys2Proof.Proofs

open Sys2Proof Sys2Proof.Machine

/-! ## One digit -/

theorem hexVal_lt {b : Byte} (h : IsHex b) : hexVal b < 16 := by
  unfold IsHex at h
  unfold hexVal
  split_ifs <;> omega

/-- A character is read as a digit exactly when it is one, and the digit is its value. -/
theorem hexDigit_eq_some_iff (b : Byte) (n : BitVec 4) : hexDigit b = some n ↔ IsHex b ∧ hexVal b = n.toNat := by
  have hn := n.isLt
  unfold hexDigit IsHex hexVal
  split_ifs <;> simp only [Option.some.injEq, ← BitVec.toNat_inj, BitVec.toNat_ofNat, false_iff] <;> omega

/-- The encoder's character of a digit is that digit. -/
@[simp] theorem hexDigit_hexChar (n : BitVec 4) : hexDigit (hexChar n) = some n := by
  have hn := n.isLt
  rw [hexDigit_eq_some_iff]
  unfold hexChar IsHex hexVal
  split_ifs <;> simp only [BitVec.toNat_ofNat] at * <;> omega

/-- Reading a digit forgets the case of a letter and nothing else. -/
theorem hexChar_of_hexDigit {b : Byte} {n : BitVec 4} (h : hexDigit b = some n) : hexChar n = upcase b := by
  obtain ⟨hhex, hval⟩ := (hexDigit_eq_some_iff b n).mp h
  unfold IsHex at hhex
  unfold hexVal at hval
  unfold hexChar upcase
  apply BitVec.eq_of_toNat_eq
  split_ifs at hval ⊢ <;> simp only [BitVec.toNat_ofNat] <;> omega

/-! ## Digit pairs -/

/-- The two nibbles of a byte make it up. -/
theorem nibbles_append (b : Byte) : b.extractLsb' 4 4 ++ b.extractLsb' 0 4 = b :=
  (BitVec.extractLsb'_append_extractLsb'_eq_extractLsb' rfl).trans BitVec.extractLsb'_eq_self

theorem toNat_append_nibbles (x y : BitVec 4) : (x ++ y).toNat = 16 * x.toNat + y.toNat := by
  rw [BitVec.toNat_append, ← Nat.shiftLeft_add_eq_or_of_lt y.isLt, Nat.shiftLeft_eq, Nat.mul_comm]

theorem hexOfByte_append (x y : BitVec 4) : hexOfByte (x ++ y) = [hexChar x, hexChar y] := by
  have hhigh : (x ++ y).extractLsb' 4 4 = x := by
    rw [BitVec.extractLsb'_append_eq_of_le (Nat.le_refl 4), BitVec.extractLsb'_eq_self]
  have hlow : (x ++ y).extractLsb' 0 4 = y := by
    rw [BitVec.extractLsb'_append_eq_of_add_le (Nat.le_refl 4), BitVec.extractLsb'_eq_self]
  rw [hexOfByte, hhigh, hlow]

/-- A pair is read when both characters and all the pairs after it are. -/
theorem hexBytes_pair_eq_some_iff (a b : Byte) (cs bs : List Byte) :
    hexBytes (a :: b :: cs) = some bs ↔
      ∃ x y r, hexDigit a = some x ∧ hexDigit b = some y ∧ hexBytes cs = some r ∧ bs = (x ++ y) :: r := by
  simp only [hexBytes]
  split
  · rename_i x y r hx hy hr
    constructor
    · rintro ⟨⟩
      exact ⟨x, y, r, hx, hy, hr, rfl⟩
    · rintro ⟨x', y', r', hx', hy', hr', rfl⟩
      cases hx.symm.trans hx'
      cases hy.symm.trans hy'
      cases hr.symm.trans hr'
      rfl
  · rename_i hnone
    constructor
    · rintro ⟨⟩
    · rintro ⟨x, y, r, hx, hy, hr, -⟩
      exact absurd hr (hnone x y r hx hy)

/-- The encoder's text of a list of bytes is read as those bytes. -/
@[simp] theorem hexBytes_hexOfBytes (bs : List Byte) : hexBytes (hexOfBytes bs) = some bs := by
  induction bs with
  | nil => rfl
  | cons b bs ih =>
    refine (hexBytes_pair_eq_some_iff ..).mpr ⟨_, _, bs, hexDigit_hexChar _, hexDigit_hexChar _, ih, ?_⟩
    rw [nibbles_append]

theorem hexOfBytes_length (bs : List Byte) : (hexOfBytes bs).length = 2 * bs.length :=
  hexBytes_length (hexBytes_hexOfBytes bs)

/-- The text of the bytes read from a text is that text in upper case. -/
theorem hexOfBytes_of_hexBytes : ∀ {cs bs : List Byte}, hexBytes cs = some bs → hexOfBytes bs = cs.map upcase
  | [], _, h => by cases h; rfl
  | [_], _, h => by cases h
  | a :: b :: cs, _, h => by
    obtain ⟨x, y, r, hx, hy, hr, rfl⟩ := (hexBytes_pair_eq_some_iff ..).mp h
    rw [hexOfBytes, hexOfByte_append, hexChar_of_hexDigit hx, hexChar_of_hexDigit hy, hexOfBytes_of_hexBytes hr]
    rfl

/-- A text is read as bytes exactly when it is digits only and an even number of them. -/
theorem hexBytes_isSome_iff : ∀ cs : List Byte, (∃ bs, hexBytes cs = some bs) ↔ cs.length % 2 = 0 ∧ ∀ c ∈ cs, IsHex c
  | [] => by simp [hexBytes]
  | [_] => by simp [hexBytes]
  | a :: b :: cs => by
    have hdigit (c : Byte) : (∃ x, hexDigit c = some x) ↔ IsHex c := by
      simp only [hexDigit_eq_some_iff]
      refine ⟨fun ⟨_, h, _⟩ => h, fun h => ⟨BitVec.ofNat 4 (hexVal c), h, ?_⟩⟩
      rw [BitVec.toNat_ofNat, Nat.mod_eq_of_lt (hexVal_lt h)]
    have hpair : (∃ bs, hexBytes (a :: b :: cs) = some bs) ↔ IsHex a ∧ IsHex b ∧ ∃ bs, hexBytes cs = some bs := by
      simp only [hexBytes_pair_eq_some_iff, ← hdigit]
      constructor
      · rintro ⟨_, x, y, r, hx, hy, hr, -⟩
        exact ⟨⟨x, hx⟩, ⟨y, hy⟩, ⟨r, hr⟩⟩
      · rintro ⟨⟨x, hx⟩, ⟨y, hy⟩, ⟨r, hr⟩⟩
        exact ⟨_, x, y, r, hx, hy, hr, rfl⟩
    rw [hpair, hexBytes_isSome_iff cs]
    simp only [List.length_cons, List.forall_mem_cons]
    constructor
    · rintro ⟨ha, hb, hlen, hcs⟩
      exact ⟨by omega, ha, hb, hcs⟩
    · rintro ⟨hlen, ha, hb, hcs⟩
      exact ⟨ha, hb, by omega, hcs⟩

/-- A byte read from a text is the value of its pair, the first digit the high one. -/
theorem hexBytes_getD : ∀ {cs bs : List Byte} {k : Nat}, hexBytes cs = some bs → k < bs.length →
    (bs.getD k 0).toNat = 16 * hexVal (cs.getD (2 * k) 0) + hexVal (cs.getD (2 * k + 1) 0)
  | [], _, _, h, hk => by cases h; cases hk
  | [_], _, _, h, _ => by cases h
  | a :: b :: cs, _, k, h, hk => by
    obtain ⟨x, y, r, hx, hy, hr, rfl⟩ := (hexBytes_pair_eq_some_iff ..).mp h
    cases k with
    | zero =>
      obtain ⟨-, hva⟩ := (hexDigit_eq_some_iff a x).mp hx
      obtain ⟨-, hvb⟩ := (hexDigit_eq_some_iff b y).mp hy
      simp [toNat_append_nibbles, hva, hvb]
    | succ k =>
      have ih := hexBytes_getD (k := k) hr (by simpa using hk)
      simpa [Nat.mul_succ] using ih

/-! ## The identifier -/

/-- One byte moved in below the identifier's bytes so far. -/
theorem toNat_shiftLeft_or_byte (acc : CanId) (b : Byte) (h : acc.toNat < 2 ^ 24) :
    (acc <<< 8 ||| b.zeroExtend 32).toNat = 256 * acc.toNat + b.toNat := by
  have hb := b.isLt
  have hacc : (acc <<< 8).toNat = acc.toNat <<< 8 := by
    rw [BitVec.toNat_shiftLeft, Nat.shiftLeft_eq]
    omega
  have hbyte : (b.zeroExtend 32).toNat = b.toNat := by
    rw [BitVec.toNat_setWidth]
    omega
  rw [BitVec.toNat_or, hacc, hbyte, ← Nat.shiftLeft_add_eq_or_of_lt hb, Nat.shiftLeft_eq, Nat.mul_comm]

theorem idOfBytes_toNat (a b c d : Byte) :
    (idOfBytes [a, b, c, d]).toNat = 2 ^ 24 * a.toNat + 2 ^ 16 * b.toNat + 2 ^ 8 * c.toNat + d.toNat := by
  have ha := a.isLt
  have hb := b.isLt
  have hc := c.isLt
  simp only [idOfBytes, List.foldl_cons, List.foldl_nil]
  have h1 : ((0 : CanId) <<< 8 ||| a.zeroExtend 32).toNat = a.toNat := by
    rw [toNat_shiftLeft_or_byte _ _ (by decide)]
    simp
  have h2 := toNat_shiftLeft_or_byte _ b (by rw [h1]; omega)
  have h3 := toNat_shiftLeft_or_byte _ c (by rw [h2, h1]; omega)
  rw [toNat_shiftLeft_or_byte _ _ (by rw [h3, h2, h1]; omega), h3, h2, h1]
  omega

@[simp] theorem idOfBytes_bytesOfId (id : CanId) : idOfBytes (bytesOfId id) = id := by
  have hid := id.isLt
  apply BitVec.eq_of_toNat_eq
  simp only [bytesOfId, idOfBytes_toNat, BitVec.extractLsb'_toNat, Nat.shiftRight_eq_div_pow]
  omega

theorem bytesOfId_idOfBytes {bs : List Byte} (h : bs.length = 4) : bytesOfId (idOfBytes bs) = bs := by
  obtain ⟨a, b, c, d, rfl⟩ := List.length_eq_four.mp h
  have ha := a.isLt
  have hb := b.isLt
  have hc := c.isLt
  have hd := d.isLt
  simp only [bytesOfId, List.cons.injEq, ← BitVec.toNat_inj, BitVec.extractLsb'_toNat, idOfBytes_toNat,
    Nat.shiftRight_eq_div_pow, and_true]
  omega

end Sys2Proof.Proofs
end

section
/-! The line parser: a line is accepted exactly when it is made of the `T`, eight digits, a length digit and that many digit
pairs; its frame, its text and its row follow (30_encoding.md R94 to R99, 40_frame_parser.md R135). -/

namespace Sys2Proof.Proofs

open Sys2Proof Sys2Proof.Machine

/-! ## The parts of a line -/

/-- A line cut at its length digit `d`: the identifier's digits and bytes before it, the payload's digits and bytes after
it (30_encoding.md R95, R96). -/
structure LineParts (chars idChars : List Byte) (d : Byte) (dataChars idBytes ds : List Byte) : Prop where
  chars_eq : chars = charT :: (idChars ++ d :: dataChars)
  id_bytes : hexBytes idChars = some idBytes
  id_length : idBytes.length = 4
  length_digit : hexDigit d = some (BitVec.ofNat 4 ds.length)
  length_le : ds.length ≤ 8
  data_bytes : hexBytes dataChars = some ds

section
variable {chars idChars dataChars idBytes ds : List Byte} {d : Byte} (h : LineParts chars idChars d dataChars idBytes ds)
include h

theorem LineParts.idChars_length : idChars.length = 8 := by
  rw [hexBytes_length h.id_bytes, h.id_length]

theorem LineParts.chars_length : chars.length = 10 + 2 * ds.length := by
  have hid := h.idChars_length
  have hdata := hexBytes_length h.data_bytes
  simp only [h.chars_eq, List.length_cons, List.length_append]
  omega

theorem LineParts.digit : IsHex d ∧ hexVal d = ds.length := by
  obtain ⟨hhex, hval⟩ := (hexDigit_eq_some_iff ..).mp h.length_digit
  have hle := h.length_le
  rw [BitVec.toNat_ofNat, Nat.mod_eq_of_lt (by omega)] at hval
  exact ⟨hhex, hval⟩

theorem LineParts.charAt_zero : charAt chars 0 = charT := by
  rw [h.chars_eq]
  rfl

theorem LineParts.charAt_id {i : Nat} (hi : i < 8) : charAt chars (1 + i) = idChars.getD i 0 := by
  rw [h.chars_eq, charAt, Nat.add_comm, List.getD_cons_succ, List.getD_append _ _ _ _ (by rw [h.idChars_length]; exact hi)]

theorem LineParts.charAt_digit : charAt chars 9 = d := by
  rw [h.chars_eq, charAt, List.getD_cons_succ, List.getD_append_right _ _ _ _ (by rw [h.idChars_length]), h.idChars_length]
  rfl

theorem LineParts.charAt_data (j : Nat) : charAt chars (10 + j) = dataChars.getD j 0 := by
  have hj : 10 + j = (8 + (j + 1)) + 1 := by omega
  rw [h.chars_eq, charAt, hj, List.getD_cons_succ, List.getD_append_right _ _ _ _ (by rw [h.idChars_length]; omega),
    h.idChars_length, Nat.add_sub_cancel_left, List.getD_cons_succ]

/-- The parser's checks, in its order, all pass. -/
theorem LineParts.parseLine_eq : parseLine chars = .ok (frameOf (idOfBytes idBytes) ds) := by
  have hlen := h.chars_length
  have hle := h.length_le
  have htake : (idChars ++ d :: dataChars).take 8 = idChars := by
    rw [← h.idChars_length, List.take_left]
  have hdrop : (idChars ++ d :: dataChars).drop 9 = dataChars := by
    rw [List.drop_append, h.idChars_length, List.drop_eq_nil_of_le (by rw [h.idChars_length]; omega)]
    rfl
  have hd : (idChars ++ d :: dataChars).getD 8 0 = d := by
    rw [List.getD_append_right _ _ _ _ (by rw [h.idChars_length]), h.idChars_length]
    rfl
  have hn : (BitVec.ofNat 4 ds.length).toNat = ds.length := by
    rw [BitVec.toNat_ofNat, Nat.mod_eq_of_lt (by omega)]
  obtain rfl := h.chars_eq
  simp only [parseLine, htake, hdrop, hd, h.id_bytes, h.length_digit, h.data_bytes, hn]
  rw [if_neg (by simp), if_neg (by omega), if_neg (by omega), if_neg (by omega)]

end

/-- The line parser accepts exactly the lines that have parts. -/
theorem parseLine_ok_iff (chars : List Byte) (f : CanFrame) :
    parseLine chars = .ok f ↔
      ∃ idChars d dataChars idBytes ds, LineParts chars idChars d dataChars idBytes ds ∧
        f = frameOf (idOfBytes idBytes) ds := by
  constructor
  · intro h
    obtain ⟨c, rest, idBytes, n, ds, rfl, rfl, hlen, hid, hn, h8, hcount, hds, rfl⟩ := parseLine_ok h
    simp only [List.length_cons] at hlen hcount
    have hidlen := hexBytes_length hid
    have hdslen := hexBytes_length hds
    rw [List.length_take_of_le (by omega)] at hidlen
    rw [List.length_drop] at hdslen
    have hn' : n = BitVec.ofNat 4 ds.length := by
      rw [show ds.length = n.toNat by omega, BitVec.ofNat_toNat, BitVec.setWidth_eq]
    have hcut : rest = rest.take 8 ++ rest.getD 8 0 :: rest.drop 9 := by
      rw [List.getD_eq_getElem _ _ (by omega), ← List.drop_eq_getElem_cons, List.take_append_drop]
    exact ⟨_, _, _, idBytes, ds, ⟨congrArg _ hcut, hid, by omega, hn' ▸ hn, by omega, hds⟩, rfl⟩
  · rintro ⟨_, _, _, _, _, hparts, rfl⟩
    exact hparts.parseLine_eq

/-! ## The grammar, the identifier and the payload -/

/-- Every character of a text that is read as bytes is a digit. -/
theorem isHex_getD_of_hexBytes {cs bs : List Byte} (h : hexBytes cs = some bs) {k : Nat} (hk : k < cs.length) :
    IsHex (cs.getD k 0) := by
  obtain ⟨-, hhex⟩ := (hexBytes_isSome_iff cs).mp ⟨bs, h⟩
  rw [List.getD_eq_getElem _ _ hk]
  exact hhex _ (List.getElem_mem hk)

/-- A stretch of a line that holds digits only, an even number of them, is read as bytes. -/
theorem exists_hexBytes_stretch {chars : List Byte} {start n : Nat} (heven : n % 2 = 0) (hlen : start + n ≤ chars.length)
    (hhex : ∀ k, start ≤ k → k < start + n → IsHex (charAt chars k)) :
    ∃ bs, hexBytes ((chars.drop start).take n) = some bs := by
  refine (hexBytes_isSome_iff _).mpr ⟨by rwa [List.length_take_of_le (by rw [List.length_drop]; omega)], fun c hc => ?_⟩
  obtain ⟨k, hk, rfl⟩ := List.mem_iff_getElem.mp hc
  rw [List.length_take, List.length_drop] at hk
  rw [List.getElem_take, List.getElem_drop, ← List.getD_eq_getElem _ 0]
  exact hhex _ (by omega) (by omega)

/-- A line of at least ten characters, cut before and after its length digit. -/
theorem line_cut {chars : List Byte} (h : 10 ≤ chars.length) :
    chars = charAt chars 0 :: ((chars.drop 1).take 8 ++ charAt chars 9 :: (chars.drop 10).take (chars.length - 10)) := by
  have hdigit : charAt chars 9 :: chars.drop 10 = (chars.drop 1).drop 8 := by
    rw [List.drop_drop, charAt, List.getD_eq_getElem _ _ (by omega), ← List.drop_eq_getElem_cons]
  have htail : (chars.drop 10).take (chars.length - 10) = chars.drop 10 :=
    List.take_of_length_le (by rw [List.length_drop])
  rw [htail, hdigit, List.take_append_drop, charAt, List.getD_eq_getElem _ _ (by omega), ← List.drop_eq_getElem_cons,
    List.drop_zero]

/-- Settles O5: both directions go by the parts of the line. -/
theorem lineGrammar : Obligations.LineGrammar := by
  intro chars
  constructor
  · rintro ⟨f, hf⟩
    obtain ⟨idChars, d, dataChars, idBytes, ds, hparts, rfl⟩ := (parseLine_ok_iff ..).mp hf
    have hlen := hparts.chars_length
    have hdata := hexBytes_length hparts.data_bytes
    obtain ⟨hhex, hval⟩ := hparts.digit
    rw [hparts.charAt_digit, hval]
    refine ⟨by omega, hparts.charAt_zero, fun k hk1 hk9 => ?_, hparts.length_le, hlen, fun k hk10 hk => ?_⟩
    · rcases Nat.lt_or_eq_of_le hk9 with hk9 | rfl
      · obtain ⟨i, rfl⟩ := Nat.exists_eq_add_of_le hk1
        rw [hparts.charAt_id (by omega)]
        exact isHex_getD_of_hexBytes hparts.id_bytes (by rw [hparts.idChars_length]; omega)
      · rwa [hparts.charAt_digit]
    · obtain ⟨j, rfl⟩ := Nat.exists_eq_add_of_le hk10
      rw [hparts.charAt_data]
      exact isHex_getD_of_hexBytes hparts.data_bytes (by omega)
  · rintro ⟨hmin, hlead, hhead, hle, hlen, htail⟩
    obtain ⟨idBytes, hid⟩ := exists_hexBytes_stretch (n := 8) rfl (by omega) fun k hk1 hk => hhead k hk1 (by omega)
    obtain ⟨ds, hds⟩ := exists_hexBytes_stretch (start := 10) (n := chars.length - 10) (by omega) (by omega)
      fun k hk10 hk => htail k hk10 (by omega)
    have hidlen := hexBytes_length hid
    have hdslen := hexBytes_length hds
    rw [List.length_take_of_le (by rw [List.length_drop]; omega)] at hidlen
    rw [List.length_take_of_le (by rw [List.length_drop])] at hdslen
    have hdigit : hexDigit (charAt chars 9) = some (BitVec.ofNat 4 ds.length) := by
      refine (hexDigit_eq_some_iff ..).mpr ⟨hhead 9 (by omega) (by omega), ?_⟩
      rw [BitVec.toNat_ofNat, Nat.mod_eq_of_lt (by omega)]
      omega
    exact ⟨_, (parseLine_ok_iff ..).mpr ⟨_, _, _, idBytes, ds,
      ⟨(line_cut hmin).trans (by rw [hlead]; rfl), hid, by omega, hdigit, by omega, hds⟩, rfl⟩⟩

/-- A sum over eight digits, for any summand: with the powers of 16 in the list the kernel would unfold them. -/
theorem sum_range_eight (v : Nat → Nat) :
    ((List.range 8).map v).sum = v 0 + v 1 + v 2 + v 3 + v 4 + v 5 + v 6 + v 7 := by
  have hrange : List.range 8 = [0, 1, 2, 3, 4, 5, 6, 7] := rfl
  simp only [hrange, List.map_cons, List.map_nil, List.sum_cons, List.sum_nil]
  omega

/-- Settles O6: the identifier's four bytes, each the value of its pair of digits. -/
theorem lineIdentifier : Obligations.LineIdentifier := by
  intro chars f hf
  obtain ⟨idChars, d, dataChars, idBytes, ds, hparts, rfl⟩ := (parseLine_ok_iff ..).mp hf
  have hpair {k : Nat} (hk : k < 4) : (idBytes.getD k 0).toNat =
      16 * hexVal (charAt chars (1 + 2 * k)) + hexVal (charAt chars (1 + (2 * k + 1))) := by
    rw [hparts.charAt_id (by omega), hparts.charAt_id (by omega)]
    exact hexBytes_getD hparts.id_bytes (by rw [hparts.id_length]; exact hk)
  obtain ⟨b0, b1, b2, b3, rfl⟩ := List.length_eq_four.mp hparts.id_length
  have h0 : b0.toNat = _ := hpair (k := 0) (by omega)
  have h1 : b1.toNat = _ := hpair (k := 1) (by omega)
  have h2 : b2.toNat = _ := hpair (k := 2) (by omega)
  have h3 : b3.toNat = _ := hpair (k := 3) (by omega)
  rw [frameOf_id, idOfBytes_toNat, h0, h1, h2, h3, sum_range_eight]
  ring

/-- A payload byte of a frame, as the spec reads it. -/
theorem byteAt_frameOf (id : CanId) (bs : List Byte) {i : Nat} (h : i < 8) :
    byteAt (frameOf id bs) i = (bs.getD i 0).toNat :=
  congrArg BitVec.toNat (u8_frameOf id bs i h)

/-- Settles O7. -/
theorem linePayload : Obligations.LinePayload := by
  intro chars f hf
  obtain ⟨idChars, d, dataChars, idBytes, ds, hparts, rfl⟩ := (parseLine_ok_iff ..).mp hf
  obtain ⟨-, hval⟩ := hparts.digit
  have hle := hparts.length_le
  simp only [frameOf_len]
  refine ⟨by rw [hparts.charAt_digit, hval], fun k hk => ?_, fun k hk hk8 => ?_⟩
  · rw [byteAt_frameOf _ _ (by omega), show 11 + 2 * k = 10 + (2 * k + 1) by omega, hparts.charAt_data, hparts.charAt_data]
    exact hexBytes_getD hparts.data_bytes hk
  · rw [byteAt_frameOf _ _ hk8, List.getD_eq_default _ _ hk]
    rfl

/-! ## The text and the row of a line -/

theorem lineText_parts (id : CanId) {ds : List Byte} (h : ds.length ≤ 8) :
    LineParts (lineText id ds) (hexOfBytes (bytesOfId id)) (hexChar (BitVec.ofNat 4 ds.length)) (hexOfBytes ds)
      (bytesOfId id) ds where
  chars_eq := rfl
  id_bytes := hexBytes_hexOfBytes _
  id_length := rfl
  length_digit := hexDigit_hexChar _
  length_le := h
  data_bytes := hexBytes_hexOfBytes _

/-- The text of a frame is a line of that frame. -/
theorem parseLine_lineText (id : CanId) {ds : List Byte} (h : ds.length ≤ 8) :
    parseLine (lineText id ds) = .ok (frameOf id ds) := by
  rw [(lineText_parts id h).parseLine_eq, idOfBytes_bytesOfId]

theorem decodeLine_eq_ok_iff (chars : List Byte) (i : Instr) :
    decodeLine chars = .ok i ↔ ∃ f, parseLine chars = .ok f ∧ i = tlineOf f := by
  unfold decodeLine
  split
  · rename_i f hf
    simp [hf, eq_comm]
  · rename_i hd
    simp [hd]

/-- The row of a frame of at most 8 bytes encodes as the frame's text. -/
theorem encode_tlineOf (id : CanId) {bs : List Byte} (h : bs.length ≤ 8) :
    encode (tlineOf (frameOf id bs)) = .line (lineText id bs) := by
  match bs, h with
  | [], _ => rfl
  | [_], _ => rfl
  | [_, _], _ => rfl
  | [_, _, _], _ => rfl
  | [_, _, _, _], _ => rfl
  | [_, _, _, _, _], _ => rfl
  | [_, _, _, _, _, _], _ => rfl
  | [_, _, _, _, _, _, _], _ => rfl
  | [_, _, _, _, _, _, _, _], _ => rfl
  | _ :: _ :: _ :: _ :: _ :: _ :: _ :: _ :: _ :: _, h => simp only [List.length_cons] at h; omega

/-- All that reading a line loses is the case of its letters. -/
theorem LineParts.lineText_eq {chars idChars dataChars idBytes ds : List Byte} {d : Byte}
    (h : LineParts chars idChars d dataChars idBytes ds) : lineText (idOfBytes idBytes) ds = chars.map upcase := by
  rw [h.chars_eq, lineText, bytesOfId_idOfBytes h.id_length, hexOfBytes_of_hexBytes h.id_bytes,
    hexOfBytes_of_hexBytes h.data_bytes, hexChar_of_hexDigit h.length_digit]
  simp only [List.map_cons, List.map_append]
  rfl

/-- Settles O3. -/
theorem encodeOfDecodedLine : Obligations.EncodeOfDecodedLine := by
  intro chars i hi
  obtain ⟨f, hf, rfl⟩ := (decodeLine_eq_ok_iff ..).mp hi
  obtain ⟨idChars, d, dataChars, idBytes, ds, hparts, rfl⟩ := (parseLine_ok_iff ..).mp hf
  rw [encode_tlineOf _ hparts.length_le, hparts.lineText_eq]

end Sys2Proof.Proofs
end

section
/-! The PGN map: the identifier bits under the mask are the PGN number, so a decoder is selected by one mask and match
(30_encoding.md R103, 41_pgn_decode.md R160 to R164). -/

namespace Sys2Proof.Proofs

open Sys2Proof Sys2Proof.Machine

/-! ## The PGN number and the mask -/

/-- The number of data page bits that count. -/
def pageBits (edp : Bool) : Nat := if edp then 2 else 1

theorem pageBits_false : pageBits false = 1 := rfl

theorem pageBits_true : pageBits true = 2 := rfl

/-- The mask keeps the page bits, PF and PS: bits 8 up to the last page bit. -/
theorem canMask_getElem (edp : Bool) (i : Nat) (h : i < 32) :
    (canMask edp)[i] = (decide (8 ≤ i) && decide (i < 24 + pageBits edp)) := by
  have hbits : ∀ (e : Bool) (j : Fin 32),
      (canMask e).getLsbD j = (decide (8 ≤ j.val) && decide (j.val < 24 + pageBits e)) := by decide
  exact hbits edp ⟨i, h⟩

theorem and_canMask (edp : Bool) (id : CanId) :
    id &&& canMask edp = (id.extractLsb' 8 (16 + pageBits edp)).setWidth 32 <<< 8 := by
  ext i hi
  rw [BitVec.getElem_and, canMask_getElem edp i hi, BitVec.getElem_shiftLeft]
  rcases Nat.lt_or_ge i 8 with hlow | hhigh
  · simp [hlow]
  · obtain ⟨j, rfl⟩ := Nat.exists_eq_add_of_le hhigh
    have hpage : 8 + j < 24 + pageBits edp ↔ j < 16 + pageBits edp := by omega
    simp [hpage, BitVec.getLsbD_eq_getElem hi, Bool.and_comm]

theorem and_canMask_toNat (edp : Bool) (id : CanId) :
    (id &&& canMask edp).toNat = 2 ^ 8 * (id.toNat / 2 ^ 8 % 2 ^ (16 + pageBits edp)) := by
  have hid := id.isLt
  rw [and_canMask, BitVec.toNat_shiftLeft, BitVec.toNat_setWidth, BitVec.extractLsb'_toNat, Nat.shiftRight_eq_div_pow,
    Nat.shiftLeft_eq]
  cases edp with
  | false => rw [pageBits_false]; omega
  | true => rw [pageBits_true]; omega

/-- The PGN number in integer arithmetic: the page, PF, and PS from PF 240 on (41_pgn_decode.md R162). -/
theorem pgnOfId_eq (edp : Bool) (id : CanId) :
    pgnOfId edp id = id.toNat / 2 ^ 24 % 2 ^ pageBits edp * 2 ^ 16 + id.toNat / 2 ^ 16 % 2 ^ 8 * 2 ^ 8 +
      (if id.toNat / 2 ^ 16 % 2 ^ 8 < 240 then 0 else id.toNat / 2 ^ 8 % 2 ^ 8) := by
  simp only [pgnOfId, BitVec.extractLsb'_toNat, Nat.shiftRight_eq_div_pow]
  cases edp with
  | false => rw [pageBits_false, if_neg Bool.false_ne_true]; split_ifs <;> omega
  | true => rw [pageBits_true, if_pos rfl]; split_ifs <;> omega

/-- A PGN number whose PF is at least 240 holds PS, so it and the masked identifier fix each other. -/
theorem pgnOfId_eq_iff (edp : Bool) (id : CanId) {n : Nat} (hpf : 240 ≤ n / 2 ^ 8 % 2 ^ 8) (hn : n < 2 ^ 18) :
    pgnOfId edp id = n ↔ id &&& canMask edp = BitVec.ofNat 32 (n * 2 ^ 8) := by
  rw [pgnOfId_eq, ← BitVec.toNat_inj, and_canMask_toNat, BitVec.toNat_ofNat]
  cases edp with
  | false => rw [pageBits_false]; split_ifs <;> omega
  | true => rw [pageBits_true]; split_ifs <;> omega

/-! ## The selection -/

/-- The PGN number that selects a decoder; IGNORE has none of its own (41_pgn_decode.md R164). -/
def pgnNumber : Decoder → Option Nat
  | .pgn128259 => some 128259
  | .pgn127488 => some 127488
  | .pgn127493 => some 127493
  | .pgn127508 => some 127508
  | .pgn127506 => some 127506
  | .pgn130306 => some 130306
  | .pgn127250 => some 127250
  | .pgn127245 => some 127245
  | .pgn127237 => some 127237
  | .ignore => none

/-- Every number in the table has a PF of at least 240. -/
theorem pgnNumber_range {d : Decoder} {n : Nat} (h : pgnNumber d = some n) : 240 ≤ n / 2 ^ 8 % 2 ^ 8 ∧ n < 2 ^ 18 := by
  cases d <;> cases h <;> decide

theorem pgnNumber_ofPgn (n : Nat) : pgnNumber (Decoder.ofPgn n) = some n ∨ Decoder.ofPgn n = .ignore := by
  unfold Decoder.ofPgn
  split_ifs <;> simp_all [pgnNumber]

theorem ofPgn_eq_iff {d : Decoder} {n : Nat} (h : pgnNumber d = some n) (m : Nat) : Decoder.ofPgn m = d ↔ m = n := by
  constructor
  · rintro rfl
    rcases pgnNumber_ofPgn m with hm | hm
    · exact Option.some.inj (hm.symm.trans h)
    · rw [hm] at h
      cases h
  · rintro rfl
    cases d <;> cases h <;> rfl

/-- The decoder that an identifier selects (41_pgn_decode.md R160). -/
def selected (edp : Bool) (id : CanId) : Decoder := Decoder.ofPgn (pgnOfId edp id)

theorem decodeCan_eq (edp : Bool) (f : CanFrame) : decodeCan edp f = (selected edp f.id).instr f := rfl

theorem selected_eq_iff (edp : Bool) (id : CanId) {d : Decoder} {n : Nat} (h : pgnNumber d = some n) :
    selected edp id = d ↔ id &&& canMask edp = BitVec.ofNat 32 (n * 2 ^ 8) := by
  obtain ⟨hpf, hn⟩ := pgnNumber_range h
  rw [selected, ofPgn_eq_iff h, pgnOfId_eq_iff edp id hpf hn]

/-- The match values are those of the nine PGN numbers. -/
theorem mem_canMatches_iff (m : CanId) :
    m ∈ canMatches ↔ ∃ d n, pgnNumber d = some n ∧ m = BitVec.ofNat 32 (n * 2 ^ 8) := by
  constructor
  · intro h
    have hlist : canMatches = ([Decoder.pgn128259, .pgn127488, .pgn127493, .pgn127508, .pgn127506, .pgn130306, .pgn127250,
        .pgn127245, .pgn127237].filterMap pgnNumber).map fun n => BitVec.ofNat 32 (n * 2 ^ 8) := rfl
    rw [hlist] at h
    obtain ⟨n, hn, rfl⟩ := List.mem_map.mp h
    obtain ⟨d, -, hd⟩ := List.mem_filterMap.mp hn
    exact ⟨d, n, hd, rfl⟩
  · rintro ⟨d, n, h, rfl⟩
    cases d <;> cases h <;> decide

/-- IGNORE is what every identifier outside the map selects. -/
theorem selected_eq_ignore_iff (edp : Bool) (id : CanId) :
    selected edp id = .ignore ↔ id &&& canMask edp ∉ canMatches := by
  rw [mem_canMatches_iff]
  constructor
  · rintro hign ⟨d, n, hd, hm⟩
    obtain rfl := hign.symm.trans ((selected_eq_iff edp id hd).mpr hm)
    cases hd
  · intro h
    exact (pgnNumber_ofPgn (pgnOfId edp id)).resolve_left fun hd => h ⟨_, _, hd, (selected_eq_iff edp id hd).mp rfl⟩

theorem instr_inj {d e : Decoder} {f : CanFrame} : d.instr f = e.instr f ↔ d = e := by
  constructor
  · intro h
    cases d <;> cases e <;> cases h <;> rfl
  · rintro rfl
    rfl

/-- A frame decodes to a row exactly when its identifier selects that row's decoder. -/
theorem decodeCan_eq_instr_iff (edp : Bool) (f : CanFrame) (d : Decoder) :
    decodeCan edp f = d.instr f ↔ selected edp f.id = d := instr_inj

theorem decodeCan_eq_instr_iff_match (edp : Bool) (f : CanFrame) {d : Decoder} {n : Nat} (h : pgnNumber d = some n) :
    decodeCan edp f = d.instr f ↔ f.id &&& canMask edp = BitVec.ofNat 32 (n * 2 ^ 8) :=
  (decodeCan_eq_instr_iff edp f d).trans (selected_eq_iff edp f.id h)

/-- Settles O10: each decoder's match value is its PGN number above the source address. -/
theorem pgnMap : Obligations.PgnMap := fun edp f =>
  ⟨decodeCan_eq_instr_iff_match edp f (d := .pgn128259) rfl, decodeCan_eq_instr_iff_match edp f (d := .pgn127488) rfl,
    decodeCan_eq_instr_iff_match edp f (d := .pgn127493) rfl, decodeCan_eq_instr_iff_match edp f (d := .pgn127508) rfl,
    decodeCan_eq_instr_iff_match edp f (d := .pgn127506) rfl, decodeCan_eq_instr_iff_match edp f (d := .pgn130306) rfl,
    decodeCan_eq_instr_iff_match edp f (d := .pgn127250) rfl, decodeCan_eq_instr_iff_match edp f (d := .pgn127245) rfl,
    decodeCan_eq_instr_iff_match edp f (d := .pgn127237) rfl,
    (decodeCan_eq_instr_iff edp f .ignore).trans (selected_eq_ignore_iff edp f.id)⟩

end Sys2Proof.Proofs
end

section
/-! Decoding and encoding agree at every level (30_encoding.md R90 to R103, 44_command_encoder.md R230 to R236), and a step
runs what it decodes (40_frame_parser.md R131, R140). -/

namespace Sys2Proof.Proofs

open Sys2Proof Sys2Proof.Machine

/-! ## The outbound line -/

/-- The bits of the outbound identifier outside priority and source address are PGN 127237's. -/
theorem outboundId_and_mask (prio : BitVec 3) (sa : Byte) : outboundId prio sa &&& 0xE3FFFF00 = 0x01F10500 := by
  have hprio : prio.zeroExtend 32 <<< 26 &&& (0xE3FFFF00 : CanId) = 0 := by
    revert prio; decide
  have hsa : sa.zeroExtend 32 &&& (0xE3FFFF00 : CanId) = 0 := by
    revert sa; decide
  rw [outboundId, BitVec.and_or_distrib_right, BitVec.and_or_distrib_right, hprio, hsa]
  decide

theorem outboundId_toNat (prio : BitVec 3) (sa : Byte) :
    (outboundId prio sa).toNat = 2 ^ 26 * prio.toNat + 0x1F10500 + sa.toNat := by
  have hprio := prio.isLt
  have hhigh : prio.zeroExtend 32 <<< 26 ||| (0x1F105 : CanId) <<< 8 =
      BitVec.ofNat 32 (2 ^ 18 * prio.toNat + 0x1F105) <<< 8 := by
    revert prio; decide
  have hacc : (BitVec.ofNat 32 (2 ^ 18 * prio.toNat + 0x1F105)).toNat = 2 ^ 18 * prio.toNat + 0x1F105 := by
    rw [BitVec.toNat_ofNat]
    omega
  rw [outboundId, hhigh, toNat_shiftLeft_or_byte _ _ (by omega), hacc]
  omega

theorem outboundId_priority (prio : BitVec 3) (sa : Byte) : (outboundId prio sa).extractLsb' 26 3 = prio := by
  have hprio := prio.isLt
  have hsa := sa.isLt
  apply BitVec.eq_of_toNat_eq
  rw [BitVec.extractLsb'_toNat, outboundId_toNat, Nat.shiftRight_eq_div_pow]
  omega

theorem outboundId_source (prio : BitVec 3) (sa : Byte) : (outboundId prio sa).extractLsb' 0 8 = sa := by
  have hprio := prio.isLt
  have hsa := sa.isLt
  apply BitVec.eq_of_toNat_eq
  rw [BitVec.extractLsb'_toNat, outboundId_toNat, Nat.shiftRight_eq_div_pow]
  omega

/-- The command line is decoded to the command it was written from. -/
theorem decodeTx_commandLine (prio : BitVec 3) (sa : Byte) (mode : BitVec 2) (engage : Bool) {w : BitVec 16}
    (hw : w.toNat ≤ 62832) :
    decodeTx (lineText (outboundId prio sa) (commandPayload mode engage w)) = .ok (.cmdTx prio sa mode engage w) := by
  obtain ⟨hmode, hmodeBits⟩ : (mode.zeroExtend 8).toNat ≤ 3 ∧ (mode.zeroExtend 8).extractLsb' 0 2 = mode := by
    revert mode; decide
  obtain ⟨hengage, hengageBit⟩ :
      (if engage then 1 else 0 : Byte).toNat ≤ 1 ∧ ((if engage then 1 else 0 : Byte) == 1) = engage := by
    revert engage; decide
  have hfield : w.extractLsb' 8 8 ++ w.extractLsb' 0 8 = w :=
    (BitVec.extractLsb'_append_extractLsb'_eq_extractLsb' rfl).trans BitVec.extractLsb'_eq_self
  have hparse := parseLine_lineText (outboundId prio sa) (ds := commandPayload mode engage w) (Nat.le_refl 8)
  simp only [decodeTx, hparse]
  have hsent := (congrArg BitVec.toNat hfield).trans_le hw
  refine (if_pos ⟨rfl, outboundId_and_mask prio sa, hmode, hengage, hsent, rfl, rfl, rfl, rfl⟩).trans ?_
  rw [Except.ok.injEq, Instr.cmdTx.injEq]
  exact ⟨outboundId_priority prio sa, outboundId_source prio sa, hmodeBits, hengageBit, hfield⟩

/-- What is decoded from an outbound text is a command whose field the encoder can send. -/
theorem decodeTx_ok {chars : List Byte} {i : Instr} (h : decodeTx chars = .ok i) :
    ∃ prio sa mode engage w, i = .cmdTx prio sa mode engage w ∧ w.toNat ≤ 62832 := by
  unfold decodeTx at h
  split at h
  · cases h
  · dsimp only at h
    split at h
    · rename_i hcmd
      obtain ⟨-, -, -, -, hw, -⟩ := hcmd
      cases h
      exact ⟨_, _, _, _, _, rfl, hw⟩
    · cases h

/-! ## Well-formed instructions -/

/-- A frame's instruction is well formed when the frame is and its identifier selects that decoder. -/
theorem instr_wf_iff (edp : Bool) (d : Decoder) (f : CanFrame) :
    (d.instr f).wf edp = true ↔ f.wf = true ∧ selected edp f.id = d := by
  cases d with
  | ignore => simp [Decoder.instr, Instr.wf, selected_eq_ignore_iff]
  | _ =>
    simp only [Decoder.instr, Instr.wf, CanFrame.matchesRow, Bool.and_eq_true, decide_eq_true_eq]
    rw [selected_eq_iff edp f.id rfl]
    exact Iff.rfl

theorem decode_can_of_wf {edp : Bool} {d : Decoder} {f : CanFrame} (h : (d.instr f).wf edp = true) :
    decode edp (.can f) = .ok (d.instr f) := by
  obtain ⟨-, hsel⟩ := (instr_wf_iff edp d f).mp h
  rw [decode, (decodeCan_eq_instr_iff edp f d).mpr hsel]

theorem decode_line_of_text (edp : Bool) (id : CanId) {bs : List Byte} (h : bs.length ≤ 8) :
    decode edp (.line (lineText id bs)) = .ok (tlineOf (frameOf id bs)) :=
  (decodeLine_eq_ok_iff ..).mpr ⟨_, parseLine_lineText id h, rfl⟩

theorem tlineOf_wf (edp : Bool) (f : CanFrame) : (tlineOf f).wf edp = true := by
  unfold tlineOf
  split <;> rfl

theorem decodeByte_wf (edp : Bool) (b : Byte) : (decodeByte b).wf edp = true := by
  unfold decodeByte
  split_ifs with hcr hlf
  · rfl
  · rfl
  · exact Bool.and_eq_true_iff.mpr ⟨decide_eq_true hcr, decide_eq_true hlf⟩

theorem decodeByte_data {edp : Bool} {b : Byte} (h : (Instr.data b).wf edp = true) : decodeByte b = .data b := by
  simp only [Instr.wf, Bool.and_eq_true, decide_eq_true_eq] at h
  obtain ⟨hcr, hlf⟩ := h
  rw [decodeByte, if_neg hcr, if_neg hlf]

/-- Settles O1, row by row: a port word and a terminator by evaluation, a line by its text, a frame by its selection. -/
theorem decodeOfEncode : Obligations.DecodeOfEncode := by
  intro edp i hwf
  cases i with
  | reset | rxbyte | sample | cmd | rsvd | eolCr | eolLf => rfl
  | data b => exact congrArg _ (decodeByte_data hwf)
  | tline0 | tline1 | tline2 | tline3 | tline4 | tline5 | tline6 | tline7 | tline8 =>
    exact decode_line_of_text edp _ (by simp)
  | pgn128259 => exact decode_can_of_wf (d := .pgn128259) hwf
  | pgn127488 => exact decode_can_of_wf (d := .pgn127488) hwf
  | pgn127493 => exact decode_can_of_wf (d := .pgn127493) hwf
  | pgn127508 => exact decode_can_of_wf (d := .pgn127508) hwf
  | pgn127506 => exact decode_can_of_wf (d := .pgn127506) hwf
  | pgn130306 => exact decode_can_of_wf (d := .pgn130306) hwf
  | pgn127250 => exact decode_can_of_wf (d := .pgn127250) hwf
  | pgn127245 => exact decode_can_of_wf (d := .pgn127245) hwf
  | pgn127237 => exact decode_can_of_wf (d := .pgn127237) hwf
  | ignore => exact decode_can_of_wf (d := .ignore) hwf
  | cmdTx => exact decodeTx_commandLine _ _ _ _ (of_decide_eq_true hwf)

/-- Settles O2, word by word. -/
theorem decodedIsWellFormed : Obligations.DecodedIsWellFormed := by
  intro edp w i hframe h
  cases w with
  | port p =>
    rcases decodePort_cases h with ⟨-, rfl⟩ | ⟨-, rfl | ⟨-, rfl⟩ | rfl | rfl⟩ <;> rfl
  | byte b =>
    cases h
    exact decodeByte_wf edp b
  | line chars =>
    obtain ⟨f, -, rfl⟩ := (decodeLine_eq_ok_iff ..).mp h
    exact tlineOf_wf edp f
  | tx chars =>
    obtain ⟨_, _, _, _, _, rfl, hw⟩ := decodeTx_ok h
    exact decide_eq_true hw
  | can f =>
    cases h
    exact (instr_wf_iff edp _ f).mpr ⟨hframe f rfl, rfl⟩

/-! ## Fixed words -/

/-- Settles O4, by evaluation of the decoder on the five words. -/
theorem tableWordsDecode : Obligations.TableWordsDecode :=
  ⟨by decide, by decide, by decide, by decide, by decide⟩

/-! ## The step and the levels -/

/-- The state in which a step's operation executes, when one input is pending. -/
theorem consume_of_inp {s : State} {p : PortIn} {rest : List PortIn} (h : s.inp = p :: rest) :
    s.consume = { s with inp := rest, out := [] } := by
  rw [State.consume, h]
  rfl

/-- Settles O12. -/
theorem stepRunsDecoded : Obligations.StepRunsDecoded := by
  intro s hok
  refine ⟨fun p rest i hinp hp => ?_, fun p rest hinp hrst hvalid => ?_, fun hinp => ?_⟩
  · rw [← consume_of_inp hinp]
    simp only [decode] at hp
    simp [step, hok, hinp, hp]
  · rw [← consume_of_inp hinp]
    have hp : decodePort p = .error .idle := by simp [decodePort, hrst, hvalid]
    simp [step, hok, hinp, hp]
  · simp [step, hok, hinp, State.consume]

/-- A line's row runs as its frame's line (30_encoding.md R96). -/
theorem exec_tlineOf (f : CanFrame) (s : State) : exec (tlineOf f) s = runLine f s := by
  obtain ⟨id, len, data⟩ := f
  match len with
  | 0 => rfl
  | 1 => rfl
  | 2 => rfl
  | 3 => rfl
  | 4 => rfl
  | 5 => rfl
  | 6 => rfl
  | 7 => rfl
  | _ + 8 => rfl

theorem exec_tlineOf_of_parseLine {chars : List Byte} {f : CanFrame} (h : parseLine chars = .ok f) (s : State) :
    exec (tlineOf f) s = acceptFrame f s := by
  obtain ⟨id, bs, rfl, hlen, -⟩ := parseLine_frame h
  rw [exec_tlineOf, runLine_frameOf id bs s hlen]

theorem exec_instr (d : Decoder) (f : CanFrame) (s : State) : exec (d.instr f) s = runDecoder d f s := by
  cases d <;> rfl

/-- A frame's row runs as the frame's decode (41_pgn_decode.md R160). -/
theorem exec_decodeCan (f : CanFrame) (s : State) : exec (decodeCan s.cfg.pgnUseEdp f) s = runFrame f s :=
  exec_instr _ f s

/-- A received byte runs as its class (30_encoding.md R92). -/
theorem exec_decodeByte (b : Byte) (s : State) : exec (decodeByte b) s = exec (.rxbyte b) s := by
  change _ = execRxbyte b s
  unfold decodeByte execRxbyte
  split_ifs <;> rfl

/-- A terminator runs the accumulated line (40_frame_parser.md R131). -/
theorem endOfLine_of_decodeLine {s : State} {i : Instr} (hwr : 0 < s.wr) (h : decodeLine (s.lb.chars s.wr) = .ok i) :
    endOfLine s = exec i (s.setWr 0) := by
  obtain ⟨f, hf, rfl⟩ := (decodeLine_eq_ok_iff ..).mp h
  rw [exec_tlineOf, endOfLine, if_neg (Nat.ne_of_gt hwr), hf]

/-- Settles O13. -/
theorem levelsRunDecoded : Obligations.LevelsRunDecoded := by
  intro s
  refine ⟨fun b i hi => ?_, fun i hwr hi => ?_, fun chars f i hf hi => ?_, fun e m v => rfl⟩
  · cases hi
    exact (exec_decodeByte b s).symm
  · exact ⟨endOfLine_of_decodeLine hwr hi, endOfLine_of_decodeLine hwr hi⟩
  · obtain ⟨g, hg, rfl⟩ := (decodeLine_eq_ok_iff ..).mp hi
    obtain rfl : f = g := Except.ok.inj (hf.symm.trans hg)
    rw [exec_tlineOf_of_parseLine hf]
    exact (exec_decodeCan f (s.emit (.frame f))).symm

end Sys2Proof.Proofs
end

section
/-! The frame parser at the byte level: the case of a line's digits, what a frame's decode and each class of byte do, and
what a stream of bytes emits (40_frame_parser.md R131 to R142). -/

namespace Sys2Proof.Proofs

open Sys2Proof Sys2Proof.Machine

/-! ## The case of the digits -/

theorem upcase_eq_charT_iff (b : Byte) : upcase b = charT ↔ b = charT := by
  have hT : charT.toNat = 0x54 := rfl
  rw [← BitVec.toNat_inj, ← BitVec.toNat_inj, hT]
  unfold upcase
  split_ifs <;> simp only [BitVec.toNat_ofNat]
  omega

@[simp] theorem isHex_upcase (b : Byte) : IsHex (upcase b) ↔ IsHex b := by
  unfold IsHex upcase
  split_ifs <;> simp only [BitVec.toNat_ofNat]
  omega

theorem hexVal_upcase (b : Byte) : hexVal (upcase b) = hexVal b := by
  unfold hexVal upcase
  split_ifs <;> simp only [BitVec.toNat_ofNat] at * <;> omega

@[simp] theorem hexDigit_upcase (b : Byte) : hexDigit (upcase b) = hexDigit b := by
  refine Option.ext fun n => ?_
  rw [hexDigit_eq_some_iff, hexDigit_eq_some_iff, isHex_upcase, hexVal_upcase]

@[simp] theorem hexBytes_map_upcase : ∀ cs : List Byte, hexBytes (cs.map upcase) = hexBytes cs
  | [] => rfl
  | [_] => rfl
  | a :: b :: cs => by simp only [List.map_cons, hexBytes, hexDigit_upcase, hexBytes_map_upcase cs]

/-- No check of the parser tells the case of a letter, and `T` is no digit. -/
theorem parseLine_map_upcase (chars : List Byte) : parseLine (chars.map upcase) = parseLine chars := by
  cases chars with
  | nil => rfl
  | cons c rest =>
    have hd : hexDigit ((rest.map upcase).getD 8 0) = hexDigit (rest.getD 8 0) := by
      rw [show (0 : Byte) = upcase 0 by rfl, List.getD_map, hexDigit_upcase]
      rfl
    simp only [List.map_cons, parseLine, ne_eq, upcase_eq_charT_iff, List.length_cons, List.length_map, ← List.map_take,
      ← List.map_drop, hexBytes_map_upcase, hd]

/-- Settles O8: both lines parse as their common upper case. -/
theorem lineCaseIrrelevant : Obligations.LineCaseIrrelevant := by
  intro a b h
  rw [← parseLine_map_upcase a, h, parseLine_map_upcase]

/-! ## A frame's decode -/

/-- The registers after a frame's decode, as its decoder leaves them in the reset state of the configuration. -/
def decodedTs (f : CanFrame) (cfg : Config) (ts : Telemetry) : Telemetry :=
  match runFrame f ((State.resetOf cfg).setTs ts) with
  | .next t => t.ts
  | _ => ts

/-- A decode reads and writes nothing of the state but the configuration and the registers. -/
theorem runFrame_eq (f : CanFrame) (s : State) : runFrame f s = .next (s.setTs (decodedTs f s.cfg s.ts)) := by
  unfold decodedTs runFrame runDecoder
  dsimp only [State.setTs_cfg, State.resetOf]
  split
  · unfold execPgn128259; split <;> rfl
  · unfold execPgn127488; split <;> rfl
  · unfold execPgn127493; split <;> rfl
  · unfold execPgn127508; split <;> rfl
  · unfold execPgn127506; split <;> rfl
  · unfold execPgn130306; dsimp only [State.setTs]; split_ifs <;> rfl
  · unfold execPgn127250; dsimp only [State.setTs]; split; exacts [rfl, by split <;> rfl]
  · unfold execPgn127245; split <;> rfl
  · unfold execPgn127237; split <;> rfl
  · rfl

/-- A valid frame: its FRAME output and its decode (40_frame_parser.md R140). -/
theorem acceptFrame_eq (f : CanFrame) (s : State) :
    acceptFrame f s = .next ((s.emit (.frame f)).setTs (decodedTs f s.cfg s.ts)) := runFrame_eq f _

theorem lineGives_of_exec {i : Instr} {f : CanFrame} (h : ∀ s, exec i s = acceptFrame f s) : LineGives i f := by
  intro s
  refine ⟨s.setTs (decodedTs f s.cfg s.ts), ?_, ?_, rfl⟩
  · rw [exec_decodeCan, runFrame_eq]
  · rw [h, acceptFrame_eq]
    rfl

/-- Settles O23: each row hands its frame on. -/
theorem validLineCompletes : Obligations.ValidLineCompletes :=
  ⟨fun _ => lineGives_of_exec fun _ => rfl, fun _ _ => lineGives_of_exec fun _ => rfl,
    fun _ _ _ => lineGives_of_exec fun _ => rfl, fun _ _ _ _ => lineGives_of_exec fun _ => rfl,
    fun _ _ _ _ _ => lineGives_of_exec fun _ => rfl, fun _ _ _ _ _ _ => lineGives_of_exec fun _ => rfl,
    fun _ _ _ _ _ _ _ => lineGives_of_exec fun _ => rfl, fun _ _ _ _ _ _ _ _ => lineGives_of_exec fun _ => rfl,
    fun _ _ _ _ _ _ _ _ _ => lineGives_of_exec fun _ => rfl⟩

/-! ## One byte -/

/-- The two terminators (40_frame_parser.md R132). -/
def IsTerminator (b : Byte) : Prop := b = 0x0D ∨ b = 0x0A

theorem exec_rxbyte_terminator {b : Byte} (h : IsTerminator b) (s : State) : exec (.rxbyte b) s = endOfLine s := by
  change execRxbyte b s = _
  rcases execRxbyte_cases b s with ⟨-, heq⟩ | ⟨hcr, hlf, -⟩
  · exact heq
  · exact absurd h (not_or_intro hcr hlf)

theorem exec_rxbyte_data {b : Byte} (h : ¬ IsTerminator b) (s : State) : exec (.rxbyte b) s = execData b s := by
  change execRxbyte b s = _
  rcases execRxbyte_cases b s with ⟨hterm, -⟩ | ⟨-, -, heq⟩
  · exact absurd hterm h
  · exact heq

/-- All four ways to a terminator are the one end of line. -/
theorem exec_terminators {s : State} {r : Result} (h : endOfLine s = r) :
    exec .eolCr s = r ∧ exec .eolLf s = r ∧ exec (.rxbyte 0x0D) s = r ∧ exec (.rxbyte 0x0A) s = r :=
  ⟨h, h, (exec_rxbyte_terminator (.inl rfl) s).trans h, (exec_rxbyte_terminator (.inr rfl) s).trans h⟩

theorem endOfLine_of_empty {s : State} (h : s.wr = 0) : endOfLine s = .next s := by
  rw [endOfLine, if_pos h]

theorem endOfLine_of_frame {s : State} {f : CanFrame} (hwr : s.wr ≠ 0) (h : parseLine (s.lb.chars s.wr) = .ok f) :
    endOfLine s = .next (((s.setWr 0).emit (.frame f)).setTs (decodedTs f s.cfg s.ts)) := by
  obtain ⟨id, bs, rfl, hlen, -⟩ := parseLine_frame h
  rw [endOfLine, if_neg hwr, h]
  exact (runLine_frameOf id bs _ hlen).trans (acceptFrame_eq ..)

theorem execData_of_room {s : State} (b : Byte) (h : s.wr < s.cfg.lineCap) :
    execData b s = .next ((s.setLb s.wr b).setWr (s.wr + 1)) := by
  rw [execData, if_pos h]

/-- Settles O18. -/
theorem emptyLineIgnored : Obligations.EmptyLineIgnored := by
  intro s hwr
  obtain ⟨hcr, hlf, hrxcr, hrxlf⟩ := exec_terminators (endOfLine_of_empty hwr)
  exact ⟨hrxcr, hrxlf, hcr, hlf⟩

/-- What a terminator leaves behind, whether it finds nothing, a frame or a line to drop. -/
theorem endOfLine_next (s : State) :
    ∃ t, endOfLine s = .next t ∧ t.wr = 0 ∧ t = { s with wr := 0, ts := t.ts, out := t.out } ∧
      (t.out = s.out ∨ ∃ f, t.out = s.out ++ [.frame f]) := by
  rcases endOfLine_cases s with ⟨hwr, heq⟩ | ⟨-, f, -, heq⟩ | ⟨-, d, -, heq⟩
  · exact ⟨s, heq, hwr, by rw [← hwr], .inl rfl⟩
  · exact ⟨_, heq.trans (acceptFrame_eq ..), rfl, rfl, .inr ⟨f, rfl⟩⟩
  · exact ⟨_, heq, rfl, rfl, .inl rfl⟩

/-- Settles O19. -/
theorem terminatorEmptiesBuffer : Obligations.TerminatorEmptiesBuffer := by
  intro s
  obtain ⟨t, heq, hwr, hframe, hout⟩ := endOfLine_next s
  obtain ⟨hcr, hlf, hrxcr, hrxlf⟩ := exec_terminators heq
  exact ⟨t, hcr, hlf, hrxcr, hrxlf, hwr, hframe, hout⟩

/-- Settles O21. -/
theorem dataByteStored : Obligations.DataByteStored := by
  intro s b hcr hlf hroom hwf
  have hstore := execData_of_room b hroom
  refine ⟨_, hstore, (exec_rxbyte_data (not_or_intro hcr hlf) s).trans hstore, rfl, ?_, fun a ha => ?_,
    s.lb.write_wf s.wr b hwf, rfl⟩
  · exact (s.lb.read_write s.wr s.wr b hwf).trans (if_pos rfl)
  · exact (s.lb.read_write s.wr a b hwf).trans (if_neg ha)

/-! ## The outputs of a stream -/

theorem linesOf_terminator {b : Byte} (h : IsTerminator b) (cap : Nat) (acc bs : List Byte) :
    linesOf cap acc (b :: bs) = acc :: linesOf cap [] bs := if_pos h

theorem linesOf_data_of_room {b : Byte} (h : ¬ IsTerminator b) {cap : Nat} {acc : List Byte} (hroom : acc.length < cap)
    (bs : List Byte) : linesOf cap acc (b :: bs) = linesOf cap (acc ++ [b]) bs :=
  (if_neg h).trans (if_pos hroom)

theorem linesOf_data_of_full {b : Byte} (h : ¬ IsTerminator b) {cap : Nat} {acc : List Byte} (hfull : cap ≤ acc.length)
    (bs : List Byte) : linesOf cap acc (b :: bs) = linesOf cap [] bs :=
  (if_neg h).trans (if_neg (by omega))

theorem framesOfLines_cons_ok {l : List Byte} {f : CanFrame} (h : parseLine l = .ok f) (ls : List (List Byte)) :
    framesOfLines (l :: ls) = f :: framesOfLines ls :=
  List.filterMap_cons_some (by rw [h]; rfl)

theorem framesOfLines_cons_error {l : List Byte} {d : Drop} (h : parseLine l = .error d) (ls : List (List Byte)) :
    framesOfLines (l :: ls) = framesOfLines ls :=
  List.filterMap_cons_none (by rw [h]; rfl)

/-- The outputs a stream makes after pending characters: the frames of its valid lines. -/
def streamFrames (cap : Nat) (acc bs : List Byte) : List Output := (framesOfLines (linesOf cap acc bs)).map .frame

/-- The output list a state is to end with once a stream has been fed: what feeding it keeps. -/
def outputsAfter (s : State) (bs : List Byte) : List Output :=
  s.out ++ streamFrames s.cfg.lineCap (s.lb.chars s.wr) bs

@[simp] theorem chars_zero (m : Memory) : m.chars 0 = [] := rfl

/-- A terminator's line gives its frame or nothing. -/
theorem endOfLine_outputs {b : Byte} (hb : IsTerminator b) (s : State) :
    ∃ t, endOfLine s = .next t ∧ t.lb = s.lb ∧ ∀ bs, outputsAfter t bs = outputsAfter s (b :: bs) := by
  rcases endOfLine_cases s with ⟨hwr, heq⟩ | ⟨-, f, hf, heq⟩ | ⟨-, d, hd, heq⟩
  · refine ⟨s, heq, rfl, fun bs => ?_⟩
    simp [outputsAfter, streamFrames, linesOf_terminator hb, hwr, framesOfLines_cons_error (l := []) rfl]
  · refine ⟨_, heq.trans (acceptFrame_eq ..), rfl, fun bs => ?_⟩
    simp [outputsAfter, streamFrames, linesOf_terminator hb, framesOfLines_cons_ok hf]
  · refine ⟨_, heq, rfl, fun bs => ?_⟩
    simp [outputsAfter, streamFrames, linesOf_terminator hb, framesOfLines_cons_error hd]

/-- A data byte joins the pending characters, or discards them with itself. -/
theorem execData_outputs {b : Byte} (hb : ¬ IsTerminator b) {s : State} (hwf : s.lb.wf = true) :
    ∃ t, execData b s = .next t ∧ t.lb.wf = true ∧ ∀ bs, outputsAfter t bs = outputsAfter s (b :: bs) := by
  rcases execData_cases b s with ⟨hroom, heq⟩ | ⟨hfull, heq⟩
  · refine ⟨_, heq, s.lb.write_wf s.wr b hwf, fun bs => ?_⟩
    have hlines := linesOf_data_of_room hb (cap := s.cfg.lineCap) (acc := s.lb.chars s.wr) (by rwa [Memory.chars_length]) bs
    simp [outputsAfter, streamFrames, hlines, s.lb.chars_write s.wr b hwf]
  · refine ⟨_, heq, hwf, fun bs => ?_⟩
    have hlines := linesOf_data_of_full hb (cap := s.cfg.lineCap) (acc := s.lb.chars s.wr) (by rwa [Memory.chars_length]) bs
    simp [outputsAfter, streamFrames, hlines]

theorem rxbyte_outputs (b : Byte) {s : State} (hwf : s.lb.wf = true) :
    ∃ t, exec (.rxbyte b) s = .next t ∧ t.lb.wf = true ∧ ∀ bs, outputsAfter t bs = outputsAfter s (b :: bs) := by
  by_cases hb : IsTerminator b
  · obtain ⟨t, heq, hlb, hout⟩ := endOfLine_outputs hb s
    exact ⟨t, (exec_rxbyte_terminator hb s).trans heq, hlb ▸ hwf, hout⟩
  · rw [exec_rxbyte_data hb]
    exact execData_outputs hb hwf

theorem feed_cons {b : Byte} {s s' : State} (h : exec (.rxbyte b) s = .next s') (bs : List Byte) :
    feed (b :: bs) s = feed bs s' := by
  rw [feed, h]

theorem feed_outputs : ∀ (bs : List Byte) {s : State}, s.lb.wf = true →
    ∃ t, feed bs s = .next t ∧ t.lb.wf = true ∧ t.out = outputsAfter s bs
  | [], s, hwf => ⟨s, rfl, hwf, (List.append_nil _).symm⟩
  | b :: bs, s, hwf => by
    obtain ⟨s', heq, hwf', hout⟩ := rxbyte_outputs b hwf
    obtain ⟨t, hfeed, htwf, ht⟩ := feed_outputs bs hwf'
    exact ⟨t, (feed_cons heq bs).trans hfeed, htwf, ht.trans (hout bs)⟩

/-! ## A stream in parts -/

theorem feed_append : ∀ {xs : List Byte} {s t : State}, feed xs s = .next t → ∀ ys, feed (xs ++ ys) s = feed ys t
  | [], _, _, h, _ => by cases h; rfl
  | b :: xs, s, t, h, ys => by
    cases hb : exec (.rxbyte b) s with
    | next s' =>
      rw [feed_cons hb] at h
      exact (feed_cons hb _).trans (feed_append h ys)
    | fault r => rw [feed, hb] at h; cases h
    | refused r => rw [feed, hb] at h; cases h

/-- Handing a stream over in parts is handing it over whole. -/
theorem feedParts_eq_feed : ∀ (parts : List (List Byte)) {s : State}, s.lb.wf = true →
    feedParts parts s = feed parts.flatten s
  | [], _, _ => rfl
  | part :: rest, s, hwf => by
    obtain ⟨t, hfeed, htwf, -⟩ := feed_outputs part hwf
    rw [feedParts, hfeed, List.flatten_cons, feed_append hfeed]
    exact feedParts_eq_feed rest htwf

/-- Settles O25. -/
theorem chunkingInvariant : Obligations.ChunkingInvariant := by
  intro parts s hwf
  obtain ⟨t, hfeed, -, hout⟩ := feed_outputs parts.flatten hwf
  exact ⟨t, (feedParts_eq_feed parts hwf).trans hfeed, hout⟩

theorem outputsAfter_of_empty {s : State} (h : s.wr = 0) (bs : List Byte) :
    outputsAfter s bs = s.out ++ streamFrames s.cfg.lineCap [] bs := by
  rw [outputsAfter, h, chars_zero]

/-- Settles O26: with nothing pending the new outputs are the frames of the stream's own lines. -/
theorem framesIndependentOfPast : Obligations.FramesIndependentOfPast := by
  intro bs s s' hcfg hwr hwr' hwf hwf'
  obtain ⟨t, hfeed, -, hout⟩ := feed_outputs bs hwf
  obtain ⟨t', hfeed', -, hout'⟩ := feed_outputs bs hwf'
  rw [outputsAfter_of_empty hwr] at hout
  rw [outputsAfter_of_empty hwr', ← hcfg] at hout'
  exact ⟨t, t', _, hfeed, hfeed', hout, hout'⟩

/-! ## A line fed byte by byte -/

theorem isHex_not_terminator {b : Byte} (h : IsHex b) : ¬ IsTerminator b := by
  rintro (rfl | rfl) <;> exact absurd h (by unfold IsHex; decide)

/-- A line of the grammar holds no terminator. -/
theorem not_terminator_of_parseLine {chars : List Byte} {f : CanFrame} (h : parseLine chars = .ok f) :
    ∀ c ∈ chars, ¬ IsTerminator c := by
  obtain ⟨idChars, d, dataChars, idBytes, ds, hparts, -⟩ := (parseLine_ok_iff ..).mp h
  have hT : ¬ IsTerminator charT := by unfold IsTerminator; decide
  obtain ⟨hd, -⟩ := hparts.digit
  obtain ⟨-, hid⟩ := (hexBytes_isSome_iff idChars).mp ⟨_, hparts.id_bytes⟩
  obtain ⟨-, hdata⟩ := (hexBytes_isSome_iff dataChars).mp ⟨_, hparts.data_bytes⟩
  rw [hparts.chars_eq]
  simp only [List.forall_mem_cons, List.forall_mem_append]
  exact ⟨hT, fun c hc => isHex_not_terminator (hid c hc), isHex_not_terminator hd,
    fun c hc => isHex_not_terminator (hdata c hc)⟩

theorem chars_writeFrom : ∀ (cs : List Byte) {m : Memory} (n : Nat), m.wf = true →
    (m.writeFrom n cs).chars (n + cs.length) = m.chars n ++ cs
  | [], _, _, _ => (List.append_nil _).symm
  | c :: cs, m, n, hwf => by
    have ih := chars_writeFrom cs (n + 1) (m.write_wf n c hwf)
    rw [m.chars_write n c hwf, List.append_assoc] at ih
    rw [List.length_cons, Nat.add_comm cs.length, ← Nat.add_assoc]
    exact ih

/-- The state after data bytes that all had room: they stand from the cursor on. -/
def received (s : State) (cs : List Byte) : State :=
  { s with lb := s.lb.writeFrom s.wr cs, wr := s.wr + cs.length }

theorem received_chars {s : State} (hwf : s.lb.wf = true) (cs : List Byte) :
    (received s cs).lb.chars (received s cs).wr = s.lb.chars s.wr ++ cs := chars_writeFrom cs s.wr hwf

theorem feed_data : ∀ {cs : List Byte} {s : State}, (∀ c ∈ cs, ¬ IsTerminator c) → s.wr + cs.length ≤ s.cfg.lineCap →
    feed cs s = .next (received s cs)
  | [], _, _, _ => rfl
  | c :: cs, s, hdata, hroom => by
    obtain ⟨hc, hcs⟩ := List.forall_mem_cons.mp hdata
    rw [List.length_cons] at hroom
    have hstore := (exec_rxbyte_data hc s).trans (execData_of_room c (by omega))
    have hrest : s.wr + 1 + cs.length ≤ s.cfg.lineCap := by omega
    have hcount : s.wr + 1 + cs.length = s.wr + (cs.length + 1) := by omega
    rw [feed_cons hstore, feed_data hcs hrest]
    simp [received, State.setWr, State.setLb, Memory.writeFrom, hcount]

/-- Settles O24: the characters fill the buffer, and the terminator parses what they are. -/
theorem fedLineIsDecoded : Obligations.FedLineIsDecoded := by
  intro s chars f e hwr hwf hcap hf he
  obtain ⟨id, bs, -, hbs, hlen⟩ := parseLine_frame hf
  have hdata := feed_data (s := s) (not_terminator_of_parseLine hf) (by omega)
  have hline : (received s chars).lb.chars (received s chars).wr = chars := by
    rw [received_chars hwf, hwr, chars_zero, List.nil_append]
  have hpending : (received s chars).wr ≠ 0 := by
    change s.wr + chars.length ≠ 0
    omega
  have hend := (exec_rxbyte_terminator he _).trans (endOfLine_of_frame hpending (hline.symm ▸ hf))
  refine ⟨_, _, (feed_append hdata [e]).trans (feed_cons hend []), (exec_decodeCan f s).trans (runFrame_eq f s), ?_⟩
  rw [← hwr]
  rfl

end Sys2Proof.Proofs
end

section
/-! The PGN level of a frame: what of the identifier counts, what a frame below its decoder's minimum does, and the angle
conversion in real numbers (41_pgn_decode.md R161 to R169). -/

namespace Sys2Proof.Proofs

open Sys2Proof Sys2Proof.Machine

/-! ## The identifier -/

/-- Settles O9: the page bits that count are two or one. -/
theorem pgnOfIdentifier : Obligations.PgnOfIdentifier := by
  intro edp id
  rw [pgnOfId_eq]
  cases edp <;> rfl

/-- The masked identifier alone selects the decoder (41_pgn_decode.md R161). -/
theorem selected_congr {edp : Bool} {id id' : CanId} (h : id &&& canMask edp = id' &&& canMask edp) :
    selected edp id = selected edp id' := by
  rcases pgnNumber_ofPgn (pgnOfId edp id) with hrow | hign
  · have hmatch := (selected_eq_iff edp id hrow).mp rfl
    exact ((selected_eq_iff edp id' hrow).mpr (h ▸ hmatch)).symm
  · have hno := (selected_eq_ignore_iff edp id).mp hign
    exact hign.trans ((selected_eq_ignore_iff edp id').mpr (h ▸ hno)).symm

/-- No decoder reads the identifier: the payload and its length are all it has of the frame. -/
theorem runDecoder_id (d : Decoder) (f : CanFrame) (id' : CanId) (s : State) :
    runDecoder d { f with id := id' } s = runDecoder d f s := by
  cases d <;> rfl

/-- Settles O11: the bits outside the mask neither select the decoder nor reach it. -/
theorem senderBitsIgnored : Obligations.SenderBitsIgnored := by
  intro s f id' h
  rw [decodeCan_eq, decodeCan_eq, exec_instr, exec_instr, runDecoder_id, selected_congr h]

/-! ## The length check -/

/-- Each decoder checks the length before it reads a field (41_pgn_decode.md R165, R166). -/
theorem runDecoder_of_short {d : Decoder} {f : CanFrame} (h : f.len < minLen d) (s : State) :
    runDecoder d f s = .next s := by
  cases d with
  | ignore => exact absurd h (Nat.not_lt_zero _)
  | _ => exact if_pos h

/-- Settles O37. -/
theorem shortFrameUpdatesNothing : Obligations.ShortFrameUpdatesNothing := by
  intro f s h
  rw [exec_decodeCan]
  exact runDecoder_of_short h s

/-! ## The angle conversion -/

theorem degPerRad_pos : 0 < 180 / Real.pi := div_pos (by norm_num) Real.pi_pos

/-- Three is bound enough for pi: a signed field holds less than 3.3 radians. -/
theorem degPerRad_lt : 180 / Real.pi < 60 := by
  rw [div_lt_iff₀ Real.pi_pos]
  linarith [Real.pi_gt_three]

theorem toReal_ofInt (n : Int) : toReal (Val.ofInt n) = n := by
  simp [toReal, Val.ofInt]

theorem toReal_deg (r : Int) : toReal (deg r) = (r : ℝ) * (1 / 10000) * (180 / Real.pi) := by
  simp only [toReal, deg]
  push_cast
  ring

/-- The test for a negative angle can be made on the count (41_pgn_decode.md R169). -/
theorem toReal_deg_neg_iff (r : Int) : toReal (deg r) < 0 ↔ r < 0 := by
  have hunit : 0 < 1 / 10000 * (180 / Real.pi) := mul_pos (by norm_num) degPerRad_pos
  rw [toReal_deg, mul_assoc, ← Int.cast_lt_zero (R := ℝ)]
  exact ⟨fun h => neg_of_mul_neg_left h hunit.le, fun h => mul_neg_of_neg_of_pos h hunit⟩

theorem toReal_degNorm (r : Int) :
    toReal (degNorm r) = if toReal (deg r) < 0 then toReal (deg r) + 360 else toReal (deg r) := by
  simp only [toReal_deg_neg_iff, degNorm]
  split
  · rw [toReal_add, toReal_ofInt]
    norm_num
  · rfl

/-- A signed field's angle is less than one turn either way, so one addition normalises it. -/
theorem abs_toReal_deg_lt {r : Int} (h : SignedCount r) : |toReal (deg r)| < 360 := by
  obtain ⟨hlow, hhigh⟩ := h
  have hcount : |(r : ℝ)| ≤ 32768 := by
    rw [← Int.cast_abs]
    exact_mod_cast abs_le.mpr ⟨hlow, by omega⟩
  rw [toReal_deg, abs_mul, abs_mul, abs_of_pos degPerRad_pos, abs_of_pos (by norm_num : (0 : ℝ) < 1 / 10000)]
  calc |(r : ℝ)| * (1 / 10000) * (180 / Real.pi)
    _ ≤ 32768 * (1 / 10000) * 60 := by
      gcongr
      exact degPerRad_lt.le
    _ < 360 := by norm_num

theorem toReal_degNorm_range {r : Int} (h : SignedCount r) : 0 ≤ toReal (degNorm r) ∧ toReal (degNorm r) < 360 := by
  obtain ⟨hlow, hhigh⟩ := abs_lt.mp (abs_toReal_deg_lt h)
  rw [toReal_degNorm]
  split <;> constructor <;> linarith

/-- Settles O52. -/
theorem angleConversion : Obligations.AngleConversion := fun r h =>
  ⟨toReal_deg r, toReal_deg_neg_iff r, toReal_degNorm r, toReal_degNorm_range h⟩

end Sys2Proof.Proofs
end

section
/-! The payload level of a frame: the fields over mathematical integers, what an optional field commits, and the nine
decoders and IGNORE (41_pgn_decode.md R165 to R169, 42_pgn_payloads.md R181 to R190). -/

namespace Sys2Proof.Proofs

open Sys2Proof Sys2Proof.Machine

/-! ## The fields in integers -/

theorem u8_toNat (f : CanFrame) (i : Nat) : (u8 f i).toNat = byteAt f i := rfl

theorem u8_eq_iff (f : CanFrame) (i : Nat) (b : Byte) : u8 f i = b ↔ byteAt f i = b.toNat := BitVec.toNat_inj.symm

theorem u8_and_eq_iff (f : CanFrame) (i : Nat) (mask b : Byte) :
    u8 f i &&& mask = b ↔ byteAt f i &&& mask.toNat = b.toNat := by
  rw [← BitVec.toNat_inj, BitVec.toNat_and, u8_toNat]

theorem bits10_eq_iff (f : CanFrame) (i : Nat) (g : BitVec 2) : bits10 f i = g ↔ byteAt f i % 4 = g.toNat := by
  rw [← BitVec.toNat_inj, bits10, BitVec.extractLsb'_toNat, u8_toNat]
  rfl

theorem raw16_toNat (f : CanFrame) (i : Nat) : (raw16 f i).toNat = le16 f i := by
  have hlow : byteAt f i < 2 ^ 8 := (u8 f i).isLt
  rw [raw16, BitVec.toNat_append, ← Nat.shiftLeft_add_eq_or_of_lt (u8 f i).isLt, Nat.shiftLeft_eq, u8_toNat, u8_toNat,
    le16]
  omega

theorem raw16_eq_iff (f : CanFrame) (i : Nat) (w : BitVec 16) : raw16 f i = w ↔ le16 f i = w.toNat := by
  rw [← BitVec.toNat_inj, raw16_toNat]

theorem raw16_toInt (f : CanFrame) (i : Nat) : (raw16 f i).toInt = s16 (le16 f i) := by
  rw [BitVec.toInt_eq_toNat_cond, raw16_toNat, s16]
  split_ifs <;> omega

/-! ## The optional fields -/

theorem signedField_raw16 (f : CanFrame) (i : Nat) :
    signedField (raw16 f i) = if le16 f i = 0x7FFF then none else some (s16 (le16 f i)) := by
  simp only [signedField, raw16_eq_iff, raw16_toInt]
  rfl

theorem unsignedField_raw16 (f : CanFrame) (i : Nat) :
    unsignedField (raw16 f i) = if le16 f i = 0xFFFF then none else some (le16 f i) := by
  simp only [unsignedField, raw16_eq_iff, raw16_toNat]
  rfl

theorem byteField_u8 (f : CanFrame) (i : Nat) :
    byteField (u8 f i) = if byteAt f i = 0xFF then none else some (byteAt f i) := by
  simp only [byteField, u8_eq_iff, u8_toNat]
  rfl

/-- A commit under a sentinel: the sentinel keeps the register, a count is converted (41_pgn_decode.md R165, R168). -/
theorem getD_map_sentinel {α β : Type} (sentinel : Prop) [Decidable sentinel] (count : α) (convert : α → β)
    (current : β) : ((if sentinel then none else some count).map convert).getD current =
      if sentinel then current else convert count := by
  split <;> rfl

theorem signedField_commit {β : Type} (f : CanFrame) (i : Nat) (convert : Int → β) (current : β) :
    ((signedField (raw16 f i)).map convert).getD current =
      if le16 f i = 0x7FFF then current else convert (s16 (le16 f i)) := by
  rw [signedField_raw16, getD_map_sentinel]

theorem modeField_commit (f : CanFrame) (i : Nat) (current : BitVec 2) :
    (modeField (u8 f i)).getD current = if byteAt f i ≤ 3 then BitVec.ofNat 2 (byteAt f i) else current := by
  rw [modeField, u8_toNat]
  split <;> rfl

theorem engagedField_commit (other : EngagedOther) (f : CanFrame) (i : Nat) (current : Bool) :
    (engagedField other (u8 f i)).getD current = if byteAt f i = 0 then false else if byteAt f i = 1 then true else
      match other with
      | .setTrue => true
      | .setFalse => false
      | .unchanged => current := by
  simp only [engagedField, u8_eq_iff, BitVec.reduceToNat]
  split_ifs with hzero hone
  · rfl
  · rfl
  · cases other <;> rfl

theorem gearOf_bits10 (f : CanFrame) (i : Nat) :
    gearOf (bits10 f i) =
      if byteAt f i % 4 = 1 then .drive else if byteAt f i % 4 = 2 then .reverse else .neutral := by
  simp only [gearOf, bits10_eq_iff]
  rfl

/-! ## The conversions -/

theorem scaled_eq (k : Rat) (n : Int) : scaled k n = ⟨n * k, 0⟩ := rfl

/-- Counts of 0.01 m/s in knots, the two factors as one (42_pgn_payloads.md R181). -/
theorem scaled_knots (n : Int) :
    scaled (1943844 / 100000000) n = ⟨(n : Rat) * (1 / 100) * (1943844 / 1000000), 0⟩ := by
  rw [scaled_eq, Val.mk.injEq]
  exact ⟨by ring, rfl⟩

theorem deg_eq (r : Int) : deg r = ⟨0, (r : Rat) * (1 / 10000)⟩ := by
  rw [deg, div_eq_mul_one_div]

theorem degNorm_eq_angleOf (r : Int) : degNorm r = angleOf r := by
  unfold degNorm angleOf
  split <;> simp [deg_eq, Val.add, Val.ofInt]

/-- Rounding a quarter half up is the integer division of the model (42_pgn_payloads.md R182). -/
theorem quarterRounded_eq_floor (n : Nat) : quarterRounded n = ⌊(n : Rat) * (1 / 4) + 1 / 2⌋ := by
  have hquotient : (n : Rat) * (1 / 4) + 1 / 2 = ((n + 2 : Nat) : Rat) / (4 : Nat) := by
    push_cast
    ring
  rw [hquotient, Rat.floor_natCast_div_natCast]
  rfl

theorem seeds_iff (cfg : Config) (t : Telemetry) :
    seeds cfg t = true ↔ t.apEngaged = false ∧ t.apSetpointDeg = cfg.telemReset.apSetpointDeg := by
  simp [seeds]

/-! ## The decoders -/

/-- A decoder below and from its minimum length on: the drop, or its commit (41_pgn_decode.md R165). -/
theorem length_checked {f : CanFrame} {s : State} {minimum : Nat} {commit result : Result} (h : commit = result) :
    (f.len < minimum → (if f.len < minimum then s.drop .short else commit) = .next s) ∧
      (minimum ≤ f.len → (if f.len < minimum then s.drop .short else commit) = result) :=
  ⟨fun hshort => if_pos hshort, fun hlong => (if_neg (Nat.not_lt.mpr hlong)).trans h⟩

/-- Settles O27: the one field commits, its two factors as one. -/
theorem speedDecoded : Obligations.SpeedDecoded := by
  intro f s
  refine length_checked ?_
  simp only [signedField_commit, scaled_knots]
  rfl

/-- Settles O28: the quarter rounded half up is a floor. -/
theorem rpmDecoded : Obligations.RpmDecoded := by
  intro f s
  refine length_checked ?_
  simp only [unsignedField_raw16, getD_map_sentinel, quarterRounded_eq_floor]
  rfl

/-- Settles O29: the gear has no sentinel. -/
theorem gearDecoded : Obligations.GearDecoded := by
  intro f s
  refine length_checked ?_
  rw [gearOf_bits10]
  rfl

/-- Settles O30: each field commits on its own. -/
theorem batteryDecoded : Obligations.BatteryDecoded := by
  intro f s
  refine length_checked ?_
  simp only [signedField_commit, scaled_eq]
  rfl

/-- Settles O31: the byte commits as it is. -/
theorem socDecoded : Obligations.SocDecoded := by
  intro f s
  refine length_checked ?_
  simp only [byteField_u8, getD_map_sentinel]
  rfl

/-- Settles O32: the masked reference selects the pair, and each field of the pair commits on its own. -/
theorem windDecoded : Obligations.WindDecoded := by
  intro f s
  refine length_checked ?_
  rw [windAfter]
  simp only [signedField_commit, scaled_eq, degNorm_eq_angleOf, u8_and_eq_iff, BitVec.reduceToNat]
  by_cases happarent : byteAt f 5 &&& s.cfg.windRefMask.toNat = 1
  · simp only [if_pos happarent]
    rfl
  by_cases htrue : byteAt f 5 &&& s.cfg.windRefMask.toNat = 2 ∨ byteAt f 5 &&& s.cfg.windRefMask.toNat = 3
  · simp only [if_neg happarent, if_pos htrue]
    rfl
  · simp only [if_neg happarent, if_neg htrue]

/-- Settles O33: the sentinel ends the decode before either register; a count is converted once for both. -/
theorem headingDecodedAndSeeds : Obligations.HeadingDecodedAndSeeds := by
  intro f s
  refine ⟨fun h => runDecoder_of_short (d := .pgn127250) h s, fun h hsentinel => ?_, fun h hcount => ?_⟩
  · change execPgn127250 f s = _
    rw [execPgn127250, if_neg (Nat.not_lt.mpr h), signedField_raw16, if_pos hsentinel]
  · change execPgn127250 f s = _
    rw [execPgn127250, if_neg (Nat.not_lt.mpr h), signedField_raw16, if_neg hcount]
    simp only [seeds_iff, degNorm_eq_angleOf]
    rfl

/-- Settles O34: the field commits without the normalisation. -/
theorem rudderDecoded : Obligations.RudderDecoded := by
  intro f s
  refine length_checked ?_
  simp only [signedField_commit, deg_eq]
  rfl

/-- Settles O35: the three fields commit on their own, each by its own rule of absence. -/
theorem autopilotDecoded : Obligations.AutopilotDecoded := by
  intro f s
  refine length_checked ?_
  simp only [modeField_commit, engagedField_commit, signedField_commit, degNorm_eq_angleOf]
  rfl

/-- The numbers that select a decoder other than IGNORE (41_pgn_decode.md R164). -/
theorem mem_of_pgnNumber {d : Decoder} {n : Nat} (h : pgnNumber d = some n) :
    n ∈ [128259, 127488, 127493, 127508, 127506, 130306, 127250, 127245, 127237] := by
  cases d <;> cases h <;> decide

/-- Settles O36: a number outside the table selects IGNORE. -/
theorem unknownPgnIgnored : Obligations.UnknownPgnIgnored := by
  intro f s
  refine ⟨rfl, fun hunknown => ?_⟩
  have hignore := (pgnNumber_ofPgn _).resolve_left fun hn => hunknown (mem_of_pgnNumber hn)
  rw [exec_decodeCan, runFrame, hignore]
  rfl

end Sys2Proof.Proofs
end

section
/-! SAMPLE: what it makes of each channel, the rows it sends with their reports, and that the sink's answers reach no state
of the core (43_aggregator.md R200 to R213). -/

namespace Sys2Proof.Proofs

open Sys2Proof Sys2Proof.Machine

/-! ## The operation -/

theorem exec_sample_of_clockInOrder {s : State} {now : Nat} (h : s.clockInOrder now) :
    exec (.sample now) s = .next { s with
      ag := (sampleChans s.cfg s.ts now s.cfg.chans s.ag ⟨s.out, s.sinkAns⟩).1
      out := (sampleChans s.cfg s.ts now s.cfg.chans s.ag ⟨s.out, s.sinkAns⟩).2.out
      sinkAns := (sampleChans s.cfg s.ts now s.cfg.chans s.ag ⟨s.out, s.sinkAns⟩).2.ans } := by
  rcases execSample_cases now s with ⟨⟨ch, hmem, hlt⟩, -⟩ | ⟨-, hexec⟩
  · exact absurd (h ch hmem) (Nat.not_le.mpr hlt)
  · exact hexec

theorem exec_sample_of_clockBack {s : State} {now : Nat} (h : ¬ s.clockInOrder now) : exec (.sample now) s = .next s := by
  rcases execSample_cases now s with ⟨-, hexec⟩ | ⟨hclock, -⟩
  · exact hexec
  · exact absurd hclock h

/-- Settles O44: one channel behind is enough for the clock not to be in order. -/
theorem clockBackStoresNothing : Obligations.ClockBackStoresNothing :=
  fun _ _ ch hmem hlt => exec_sample_of_clockBack fun hclock => Nat.not_le.mpr hlt (hclock ch hmem)

/-! ## The channels -/

/-- A configured channel is sampled, by its own state. -/
theorem sampleChans_sampled (cfg : Config) (t : Telemetry) (now : Nat) {cs : List ChanCfg} {chs : List Chan} (io : SinkIO)
    {k : Nat} {c : ChanCfg} {ch : Chan} (hc : cs[k]? = some c) (hch : chs[k]? = some ch) :
    ∃ ch', (sampleChans cfg t now cs chs io).1[k]? = some ch' ∧ Sampled cfg t now c ch ch' := by
  obtain ⟨ch', hch', ⟨c', hc', hsampled⟩ | ⟨hnone, -⟩⟩ := sampleChans_getElem? cfg t now (cs := cs) (io := io) hch
  · obtain rfl : c = c' := Option.some.inj (hc.symm.trans hc')
    exact ⟨ch', hch', hsampled⟩
  · cases hnone.symm.trans hc

theorem sampleChans_length (cfg : Config) (t : Telemetry) (now : Nat) : ∀ (cs : List ChanCfg) (chs : List Chan) (io : SinkIO),
    (sampleChans cfg t now cs chs io).1.length = chs.length
  | [], _, _ => rfl
  | _ :: _, [], _ => rfl
  | _ :: cs, _ :: chs, _ => congrArg (· + 1) (sampleChans_length cfg t now cs chs _)

section
variable {cfg : Config} {t : Telemetry} {now : Nat} {c : ChanCfg} {ch ch' : Chan}

theorem sampled_of_closed (h : Sampled cfg t now c ch ch') (hgate : now - ch.lastT < c.ivl) : ch' = ch := by
  cases h with
  | closed => rfl
  | fine hopen | medium hopen | coarse hopen => exact absurd hopen (Nat.not_le.mpr hgate)

theorem push_stored (cap : Nat) (v : Val) (r : Series) : Stored cap v r (r.push cap v) :=
  ⟨rfl, rfl, by simp⟩

theorem sampled_fine_stored (h : Sampled cfg t now c ch ch') (hgate : c.ivl ≤ now - ch.lastT) :
    ch'.lastT = now ∧ Stored c.cap (numeric t c.src) ch.fine ch'.fine := by
  cases h with
  | closed hclosed => exact absurd hgate hclosed
  | fine | medium | coarse => exact ⟨rfl, push_stored _ _ _⟩

/-- Short of N1 points the accumulator grows, and nothing beyond it is reached (43_aggregator.md R205). -/
theorem sampled_of_acc1_short (h : Sampled cfg t now c ch ch') (hgate : c.ivl ≤ now - ch.lastT)
    (hn1 : ch.acc1.cnt + 1 ≠ cfg.n1) :
    ch'.acc1 = ⟨ch.acc1.sum.add (numeric t c.src), ch.acc1.cnt + 1⟩ ∧ ch'.medium = ch.medium ∧ ch'.coarse = ch.coarse ∧
      ch'.acc2 = ch.acc2 := by
  cases h with
  | closed hclosed => exact absurd hgate hclosed
  | fine => exact ⟨rfl, rfl, rfl, rfl⟩
  | medium _ hfull | coarse _ hfull => exact absurd hfull hn1

/-- The N1-th point gives a medium one, which the coarse accumulator takes as the fine one was taken (R205, R206). -/
theorem sampled_of_acc1_full (h : Sampled cfg t now c ch ch') (hgate : c.ivl ≤ now - ch.lastT)
    (hn1 : ch.acc1.cnt + 1 = cfg.n1) :
    ch'.acc1 = ⟨Val.zero, 0⟩ ∧ Stored c.cap (mediumPoint cfg t c ch) ch.medium ch'.medium ∧
      (ch.acc2.cnt + 1 ≠ cfg.n2 →
        ch'.acc2 = ⟨ch.acc2.sum.add (mediumPoint cfg t c ch), ch.acc2.cnt + 1⟩ ∧ ch'.coarse = ch.coarse) ∧
      (ch.acc2.cnt + 1 = cfg.n2 →
        ch'.acc2 = ⟨Val.zero, 0⟩ ∧
          Stored c.cap ((ch.acc2.sum.add (mediumPoint cfg t c ch)).divNat cfg.n2) ch.coarse ch'.coarse) := by
  cases h with
  | closed hclosed => exact absurd hgate hclosed
  | fine _ hshort => exact absurd hn1 hshort
  | medium _ _ hshort =>
    exact ⟨rfl, push_stored _ _ _, fun _ => ⟨rfl, rfl⟩, fun hn2 => absurd hn2 hshort⟩
  | coarse _ _ hfull =>
    exact ⟨rfl, push_stored _ _ _, fun hn2 => absurd hfull hn2, fun _ => ⟨rfl, push_stored _ _ _⟩⟩

end

/-- Settles O38: a sampled channel whose gate is closed is the channel before. -/
theorem closedGateKeepsChannel : Obligations.ClosedGateKeepsChannel := by
  intro s now hclock
  refine ⟨_, exec_sample_of_clockInOrder hclock, rfl, sampleChans_length .., fun k c ch hc hch hgate => ?_⟩
  obtain ⟨ch', hch', hsampled⟩ := sampleChans_sampled s.cfg s.ts now ⟨s.out, s.sinkAns⟩ hc hch
  exact sampled_of_closed hsampled hgate ▸ hch'

/-- The two integer registers are sampled as numbers, the others as they are (43_aggregator.md R203). -/
theorem numeric_samples (t : Telemetry) (r : NumReg) : Samples t (numeric t r) r := by
  cases r with
  | rpm => exact toReal_ofInt t.rpm
  | socPct => exact toReal_ofInt t.socPct
  | stwKn | battV | battA | awsMs | awaDeg | twsMs | twaDeg | headingDeg | apSetpointDeg | rudderDeg | xte => rfl

/-- Settles O39: at an open gate every sampled channel has its fine point, however far that point cascades. -/
theorem openGateStoresFinePoint : Obligations.OpenGateStoresFinePoint := by
  intro s now k c ch hclock hc hch hgate
  obtain ⟨ch', hch', hsampled⟩ := sampleChans_sampled s.cfg s.ts now ⟨s.out, s.sinkAns⟩ hc hch
  obtain ⟨htime, hstored⟩ := sampled_fine_stored hsampled hgate
  exact ⟨_, ch', _, exec_sample_of_clockInOrder hclock, hch', htime, hstored, rfl, numeric_samples s.ts c.src⟩

/-- Settles O40, by whether the medium accumulator is completed. -/
theorem cascadeDownsamples : Obligations.CascadeDownsamples := by
  rintro s now k c ch v m hclock hc hch hgate rfl rfl
  obtain ⟨ch', hch', hsampled⟩ := sampleChans_sampled s.cfg s.ts now ⟨s.out, s.sinkAns⟩ hc hch
  exact ⟨_, ch', exec_sample_of_clockInOrder hclock, hch', sampled_of_acc1_short hsampled hgate,
    sampled_of_acc1_full hsampled hgate⟩

/-! ## The rows -/

/-- The sink's side after a list of rows: their outputs join, and one answer each is used (43_aggregator.md R211). -/
def sent (io : SinkIO) (rows : List Output) : SinkIO :=
  ⟨io.out ++ withReports rows io.ans, io.ans.drop rows.length⟩

@[simp] theorem sent_nil (io : SinkIO) : sent io [] = io := by
  simp [sent, withReports]

theorem sendRow_eq_sent (io : SinkIO) (n : String) (h : Horizon) (t : Nat) (v : Val) :
    io.sendRow n h t v = sent io [.row n h t v] := by
  obtain ⟨out, ans⟩ := io
  match ans with
  | [] => rfl
  | true :: _ => rfl
  | false :: _ => rfl

/-- The head output takes the first answer. -/
theorem withReports_cons (o : Output) (os : List Output) (as : List Bool) :
    withReports (o :: os) as = withReports [o] as ++ withReports os as.tail := by
  match as with
  | [] => rfl
  | true :: _ => rfl
  | false :: _ => cases o <;> rfl

theorem withReports_append (xs ys : List Output) (as : List Bool) :
    withReports (xs ++ ys) as = withReports xs as ++ withReports ys (as.drop xs.length) := by
  induction xs generalizing as with
  | nil => rfl
  | cons x xs ih =>
    rw [List.cons_append, withReports_cons, ih, withReports_cons x xs, List.append_assoc, List.drop_tail, List.length_cons]

theorem sent_append (io : SinkIO) (xs ys : List Output) : sent io (xs ++ ys) = sent (sent io xs) ys := by
  simp [sent, withReports_append]

theorem storeCoarse_io (e : StoreEnv) (v : Val) (ch : Chan) (io : SinkIO) :
    (storeCoarse e v (ch, io)).2 = sent io [.row e.chan.name .coarse e.now v] :=
  sendRow_eq_sent ..

/-- A medium point's row, and a coarse one's where the coarse accumulator is completed. -/
theorem storeMedium_io (e : StoreEnv) (v : Val) (ch : Chan) (io : SinkIO) :
    (storeMedium e v (ch, io)).2 = sent io (.row e.chan.name .medium e.now v ::
      if ch.acc2.cnt + 1 = e.n2 then [.row e.chan.name .coarse e.now ((ch.acc2.sum.add v).divNat e.n2)] else []) := by
  rcases storeMedium_cases e v (ch, io) with ⟨hn2, heq⟩ | ⟨hn2, heq⟩
  · rw [heq, storeCoarse_io, sendRow_eq_sent, ← sent_append, if_pos hn2]
    rfl
  · rw [heq, if_neg hn2]
    exact sendRow_eq_sent ..

theorem sampleChan_io (cfg : Config) (t : Telemetry) (now : Nat) (c : ChanCfg) (ch : Chan) (io : SinkIO) :
    (sampleChan cfg t now c (ch, io)).2 = sent io (rowsOf cfg t now c ch) := by
  unfold rowsOf
  rcases sampleChan_cases cfg t now c (ch, io) with ⟨hopen, heq⟩ | ⟨hclosed, heq⟩
  · have hgate : ¬ now - ch.lastT < c.ivl := Nat.not_lt.mpr ((gateOpen_iff ..).mp hopen)
    rw [heq, if_neg hgate]
    rcases storeFine_cases ⟨c, cfg.n1, cfg.n2, now⟩ (numeric t c.src) ({ ch with lastT := now }, io) with
      ⟨hn1, hfine⟩ | ⟨hn1, hfine⟩
    · rw [hfine, storeMedium_io, sendRow_eq_sent, ← sent_append, if_pos hn1]
      rfl
    · rw [hfine, if_neg hn1]
      exact sendRow_eq_sent ..
  · have hgate : now - ch.lastT < c.ivl := by simpa [gateOpen] using hclosed
    rw [heq, if_pos hgate, sent_nil]

theorem sampleChans_io (cfg : Config) (t : Telemetry) (now : Nat) : ∀ (cs : List ChanCfg) (chs : List Chan) (io : SinkIO),
    (sampleChans cfg t now cs chs io).2 = sent io (List.zipWith (rowsOf cfg t now) cs chs).flatten
  | [], _, io => (sent_nil io).symm
  | _ :: _, [], io => (sent_nil io).symm
  | c :: cs, ch :: chs, io => by
    rw [sampleChans, sampleChans_io cfg t now cs chs, sampleChan_io, ← sent_append]
    rfl

/-- Settles O42: the channels beyond the shorter of the two lists send nothing, so that the lengths do not matter. -/
theorem sampleRowsInOrder : Obligations.SampleRowsInOrder := by
  intro s now hclock _
  have hio := sampleChans_io s.cfg s.ts now s.cfg.chans s.ag ⟨s.out, s.sinkAns⟩
  exact ⟨_, exec_sample_of_clockInOrder hclock, congrArg SinkIO.out hio, congrArg SinkIO.ans hio⟩

/-! ## The sink and the core -/

/-- Two results that complete in states which differ at most in the outputs and the sink's answers. -/
def SameCore (r r' : Result) : Prop :=
  ∃ t t', r = .next t ∧ r' = .next t' ∧ t' = { t with out := t'.out, sinkAns := t'.sinkAns }

/-- What a SAMPLE makes of a channel is a function of the channel, its configuration and the registers. -/
theorem sampled_unique {cfg : Config} {t : Telemetry} {now : Nat} {c : ChanCfg} {ch a b : Chan}
    (ha : Sampled cfg t now c ch a) (hb : Sampled cfg t now c ch b) : a = b := by
  cases ha with
  | closed hclosed => exact (sampled_of_closed hb (Nat.not_le.mp hclosed)).symm
  | fine hgate hn1 =>
    cases hb with
    | fine => rfl
    | closed hclosed => exact absurd hgate hclosed
    | medium _ hfull | coarse _ hfull => exact absurd hfull hn1
  | medium hgate hn1 hn2 =>
    cases hb with
    | medium => rfl
    | closed hclosed => exact absurd hgate hclosed
    | fine _ hshort => exact absurd hn1 hshort
    | coarse _ _ hfull => exact absurd hfull hn2
  | coarse hgate hn1 hn2 =>
    cases hb with
    | coarse => rfl
    | closed hclosed => exact absurd hgate hclosed
    | fine _ hshort => exact absurd hn1 hshort
    | medium _ _ hshort => exact absurd hn2 hshort

/-- The channels after a SAMPLE do not depend on the sink (43_aggregator.md R211). -/
theorem sampleChans_chans (cfg : Config) (t : Telemetry) (now : Nat) : ∀ (cs : List ChanCfg) (chs : List Chan)
    (io io' : SinkIO), (sampleChans cfg t now cs chs io).1 = (sampleChans cfg t now cs chs io').1
  | [], _, _, _ => rfl
  | _ :: _, [], _, _ => rfl
  | c :: cs, ch :: chs, io, io' => by
    have hhead := sampled_unique (sampleChan_sampled cfg t now c ch io) (sampleChan_sampled cfg t now c ch io')
    rw [sampleChans, sampleChans]
    exact congrArg₂ List.cons hhead (sampleChans_chans cfg t now cs chs _ _)

/-- Each of the ten selections is some identifier's. -/
theorem exists_id_of_decoder (edp : Bool) (d : Decoder) : ∃ id : CanId, Decoder.ofPgn (pgnOfId edp id) = d := by
  refine ⟨BitVec.ofNat 32 (((pgnNumber d).getD 0) * 0x100), ?_⟩
  cases edp <;> cases d <;> decide

/-- A decoder reads nothing of the identifier, so that what holds of a frame's decode holds of every decoder's. -/
theorem runDecoder_eq_runFrame (d : Decoder) (f : CanFrame) (edp : Bool) :
    ∃ g, ∀ s : State, s.cfg.pgnUseEdp = edp → runDecoder d f s = runFrame g s := by
  obtain ⟨id, hid⟩ := exists_id_of_decoder edp d
  refine ⟨{ f with id := id }, fun s hedp => ?_⟩
  rw [runFrame, hedp, hid]
  cases d <;> rfl

theorem endOfLine_of_error {s : State} {d : Drop} (hwr : s.wr ≠ 0) (h : parseLine (s.lb.chars s.wr) = .error d) :
    endOfLine s = .next (s.setWr 0) := by
  rw [endOfLine, if_neg hwr, h]
  rfl

section
variable (s : State) (answers : List Bool)

theorem runDecoder_sameCore (d : Decoder) (f : CanFrame) :
    SameCore (runDecoder d f s) (runDecoder d f { s with sinkAns := answers }) := by
  obtain ⟨g, hg⟩ := runDecoder_eq_runFrame d f s.cfg.pgnUseEdp
  exact ⟨_, _, (hg s rfl).trans (runFrame_eq g s), (hg { s with sinkAns := answers } rfl).trans (runFrame_eq g _), rfl⟩

theorem acceptFrame_sameCore (f : CanFrame) :
    SameCore (acceptFrame f s) (acceptFrame f { s with sinkAns := answers }) :=
  ⟨_, _, acceptFrame_eq .., acceptFrame_eq .., rfl⟩

theorem endOfLine_sameCore : SameCore (endOfLine s) (endOfLine { s with sinkAns := answers }) := by
  rcases endOfLine_cases s with ⟨hwr, -⟩ | ⟨hwr, f, hf, -⟩ | ⟨hwr, d, hd, -⟩
  · exact ⟨_, _, endOfLine_of_empty hwr, endOfLine_of_empty hwr, rfl⟩
  · exact ⟨_, _, endOfLine_of_frame hwr hf, endOfLine_of_frame hwr hf, rfl⟩
  · exact ⟨_, _, endOfLine_of_error hwr hd, endOfLine_of_error hwr hd, rfl⟩

theorem execData_sameCore (b : Byte) : SameCore (execData b s) (execData b { s with sinkAns := answers }) := by
  by_cases hroom : s.wr < s.cfg.lineCap
  · exact ⟨_, _, execData_of_room b hroom, execData_of_room b hroom, rfl⟩
  · exact ⟨_, _, if_neg hroom, if_neg hroom, rfl⟩

theorem rxbyte_sameCore (b : Byte) :
    SameCore (exec (.rxbyte b) s) (exec (.rxbyte b) { s with sinkAns := answers }) := by
  by_cases hb : IsTerminator b
  · rw [exec_rxbyte_terminator hb, exec_rxbyte_terminator hb]
    exact endOfLine_sameCore s answers
  · rw [exec_rxbyte_data hb, exec_rxbyte_data hb]
    exact execData_sameCore s answers b

theorem sample_sameCore (now : Nat) :
    SameCore (exec (.sample now) s) (exec (.sample now) { s with sinkAns := answers }) := by
  by_cases hclock : s.clockInOrder now
  · refine ⟨_, _, exec_sample_of_clockInOrder hclock, exec_sample_of_clockInOrder hclock, ?_⟩
    rw [sampleChans_chans s.cfg s.ts now s.cfg.chans s.ag ⟨s.out, s.sinkAns⟩ ⟨s.out, answers⟩]
  · exact ⟨_, _, exec_sample_of_clockBack hclock, exec_sample_of_clockBack hclock, rfl⟩

end

/-- Settles O43, row by row: only SAMPLE reads the answers at all, and its channels do not depend on them. -/
theorem sinkNeverTouchesState : Obligations.SinkNeverTouchesState := by
  intro s answers i hi
  cases i with
  | rsvd => exact absurd rfl hi
  | reset | cmd | cmdTx => exact ⟨_, _, rfl, rfl, rfl⟩
  | sample now => exact sample_sameCore s answers now
  | rxbyte b => exact rxbyte_sameCore s answers b
  | eolCr | eolLf => exact endOfLine_sameCore s answers
  | data b => exact execData_sameCore s answers b
  | tline0 | tline1 | tline2 | tline3 | tline4 | tline5 | tline6 | tline7 | tline8 =>
    exact acceptFrame_sameCore s answers _
  | pgn128259 f => exact runDecoder_sameCore s answers .pgn128259 f
  | pgn127488 f => exact runDecoder_sameCore s answers .pgn127488 f
  | pgn127493 f => exact runDecoder_sameCore s answers .pgn127493 f
  | pgn127508 f => exact runDecoder_sameCore s answers .pgn127508 f
  | pgn127506 f => exact runDecoder_sameCore s answers .pgn127506 f
  | pgn130306 f => exact runDecoder_sameCore s answers .pgn130306 f
  | pgn127250 f => exact runDecoder_sameCore s answers .pgn127250 f
  | pgn127245 f => exact runDecoder_sameCore s answers .pgn127245 f
  | pgn127237 f => exact runDecoder_sameCore s answers .pgn127237 f
  | ignore f => exact runDecoder_sameCore s answers .ignore f

end Sys2Proof.Proofs
end

section
/-! The encoder's rational bounds of pi: the partial sums of Machin's two series lie below and above their arctangents by
turns, and the cut to 20 decimals keeps what they enclose (log 7). -/

namespace Sys2Proof.Proofs

open Sys2Proof Sys2Proof.Machine

/-! ## The series of arctan(1/m) -/

/-- The size of the k-th term of the series that `arctanInv` sums. -/
noncomputable def arctanTerm (m k : ℕ) : ℝ := 1 / ((2 * k + 1) * (m : ℝ) ^ (2 * k + 1))

theorem arctanInv_eq_sum (m : ℕ) :
    ∀ n : ℕ, (arctanInv m n : ℝ) = ∑ k ∈ Finset.range n, (-1) ^ k * arctanTerm m k
  | 0 => by simp [arctanInv]
  | n + 1 => by
    rw [Finset.sum_range_succ, ← arctanInv_eq_sum m n, arctanInv, arctanTerm]
    split_ifs with heven
    · rw [(Nat.even_iff.mpr heven).neg_one_pow]
      push_cast
      ring
    · rw [(Nat.not_even_iff_odd.mp (mt Nat.even_iff.mp heven)).neg_one_pow]
      push_cast
      ring

theorem arctanTerm_strictAnti {m : ℕ} (hm : 1 < m) : StrictAnti (arctanTerm m) := by
  refine strictAnti_nat_of_succ_lt fun k => ?_
  have hm' : (1 : ℝ) < m := by exact_mod_cast hm
  unfold arctanTerm
  gcongr <;> omega

theorem tendsto_arctan_series {m : ℕ} (hm : 1 < m) :
    Filter.Tendsto (fun n => ∑ k ∈ Finset.range n, (-1) ^ k * arctanTerm m k) Filter.atTop
      (nhds (Real.arctan (m : ℝ)⁻¹)) := by
  have hnorm : ‖(m : ℝ)⁻¹‖ < 1 := by
    rw [norm_inv, RCLike.norm_natCast]
    exact inv_lt_one_of_one_lt₀ (by exact_mod_cast hm)
  refine (Real.hasSum_arctan hnorm).tendsto_sum_nat.congr fun n => Finset.sum_congr rfl fun k _ => ?_
  rw [arctanTerm, inv_pow, one_div, mul_inv]
  push_cast
  ring

/-- The next pair of terms still raises the sum. -/
theorem arctanInv_even_lt {m : ℕ} (hm : 1 < m) (t : ℕ) : (arctanInv m (2 * t) : ℝ) < Real.arctan (m : ℝ)⁻¹ := by
  have hpair := arctanTerm_strictAnti hm (Nat.lt_succ_self (2 * t))
  have hle := (arctanTerm_strictAnti hm).antitone.alternating_series_le_tendsto (tendsto_arctan_series hm) (t + 1)
  rw [Nat.mul_succ, Finset.sum_range_succ, Finset.sum_range_succ, (even_two_mul t).neg_one_pow,
    (even_two_mul t).add_one.neg_one_pow, ← arctanInv_eq_sum] at hle
  linarith

/-- The next pair of terms still lowers the sum. -/
theorem arctan_lt_arctanInv_odd {m : ℕ} (hm : 1 < m) (t : ℕ) :
    Real.arctan (m : ℝ)⁻¹ < (arctanInv m (2 * t + 1) : ℝ) := by
  have hpair := arctanTerm_strictAnti hm (Nat.lt_succ_self (2 * t + 1))
  have hle := (arctanTerm_strictAnti hm).antitone.tendsto_le_alternating_series (tendsto_arctan_series hm) (t + 1)
  rw [Nat.mul_succ, Finset.sum_range_succ, Finset.sum_range_succ, (even_two_mul t).add_one.neg_one_pow,
    ((even_two_mul t).add even_two).neg_one_pow, ← arctanInv_eq_sum] at hle
  linarith

theorem machin_lower_lt_pi (t : ℕ) : ((16 * arctanInv 5 (2 * t) - 4 * arctanInv 239 (2 * t + 1) : ℚ) : ℝ) < Real.pi := by
  have hfive := arctanInv_even_lt (m := 5) (by decide) t
  have hrest := arctan_lt_arctanInv_odd (m := 239) (by decide) t
  have hmachin := Real.four_mul_arctan_inv_5_sub_arctan_inv_239
  push_cast at hfive hrest ⊢
  linarith

theorem pi_lt_machin_upper (t : ℕ) : Real.pi < ((16 * arctanInv 5 (2 * t + 1) - 4 * arctanInv 239 (2 * t) : ℚ) : ℝ) := by
  have hfive := arctan_lt_arctanInv_odd (m := 5) (by decide) t
  have hrest := arctanInv_even_lt (m := 239) (by decide) t
  have hmachin := Real.four_mul_arctan_inv_5_sub_arctan_inv_239
  push_cast at hfive hrest ⊢
  linarith

/-! ## The bounds -/

theorem piLow_lt_pi : (piLow : ℝ) < Real.pi := by
  refine lt_of_eq_of_lt ?_ Real.pi_gt_d20
  norm_num [piLow]

theorem pi_lt_piHigh : Real.pi < (piHigh : ℝ) := by
  refine Real.pi_lt_d20.trans_eq ?_
  norm_num [piHigh]

theorem piLow_le_piHigh : piLow ≤ piHigh := by
  exact_mod_cast (piLow_lt_pi.trans pi_lt_piHigh).le

theorem nearPi_mem (q : ℚ) : nearPi q ∈ Set.Icc piLow piHigh :=
  ⟨le_max_left _ _, max_le piLow_le_piHigh (min_le_left _ _)⟩

theorem nearPi_lt_pi {q : ℚ} (h : (q : ℝ) < Real.pi) : (nearPi q : ℝ) < Real.pi := by
  rw [nearPi, Rat.cast_max, Rat.cast_min]
  exact max_lt piLow_lt_pi ((min_le_right _ _).trans_lt h)

theorem pi_lt_nearPi {q : ℚ} (h : Real.pi < (q : ℝ)) : Real.pi < (nearPi q : ℝ) := by
  rw [nearPi, Rat.cast_max, Rat.cast_min]
  exact (lt_min pi_lt_piHigh h).trans_le (le_max_right _ _)

/-- Settles O53: level 0 is the 20 decimals, every later one a pair of partial sums moved between them. -/
theorem piBoundsEnclose : Obligations.PiBoundsEnclose
  | 0 => ⟨piLow_lt_pi, pi_lt_piHigh⟩
  | _ + 1 => ⟨nearPi_lt_pi (machin_lower_lt_pi _), pi_lt_nearPi (pi_lt_machin_upper _)⟩

end Sys2Proof.Proofs
end

section
/-! The encoder's arithmetic: a floor at pi is a floor at some rational of the 20-decimal bounds, so the turns taken off and
the wire units are off the exact ones by no more than those bounds allow (44_command_encoder.md R231, R232; log 7). -/

namespace Sys2Proof.Proofs

open Sys2Proof Sys2Proof.Machine

/-! ## Floors at pi -/

theorem piBounds_mem (n : ℕ) : (piBounds n).1 ∈ Set.Icc piLow piHigh ∧ (piBounds n).2 ∈ Set.Icc piLow piHigh := by
  cases n with
  | zero => exact ⟨⟨le_rfl, piLow_le_piHigh⟩, ⟨piLow_le_piHigh, le_rfl⟩⟩
  | succ n => exact ⟨nearPi_mem _, nearPi_mem _⟩

/-- Whatever the narrowing finds, and whichever floor is taken where it finds none. -/
theorem floorAtPi_eq_floor (f : ℚ → ℚ) (n fuel : ℕ) : ∃ b ∈ Set.Icc piLow piHigh, floorAtPi f n fuel = ⌊f b⌋ := by
  obtain ⟨m, h | h⟩ := floorAtPi_cases f fuel n
  · exact ⟨_, (piBounds_mem m).1, h⟩
  · exact ⟨_, (piBounds_mem m).2, h⟩

/-- A floor that is the same at all rationals of the bounds is found. -/
theorem floorAtPi_eq_of_forall {f : ℚ → ℚ} {k : ℤ} (h : ∀ b ∈ Set.Icc piLow piHigh, ⌊f b⌋ = k) (n fuel : ℕ) :
    floorAtPi f n fuel = k := by
  obtain ⟨b, hb, heq⟩ := floorAtPi_eq_floor f n fuel
  exact heq.trans (h b hb)

/-- Seven decimals of the bounds, enough for the counts of 16 bits. -/
theorem decimals_of_mem {b : ℚ} (hb : b ∈ Set.Icc piLow piHigh) : 31415926 / 10 ^ 7 < b ∧ b < 31415927 / 10 ^ 7 := by
  obtain ⟨hlow, hhigh⟩ := hb
  constructor
  · refine lt_of_lt_of_le ?_ hlow
    norm_num [piLow]
  · refine hhigh.trans_lt ?_
    norm_num [piHigh]

theorem abs_sub_pi_le {b : ℚ} (hb : b ∈ Set.Icc piLow piHigh) : |(b : ℝ) - Real.pi| ≤ 1 / 10 ^ 20 := by
  have hlow : (piLow : ℝ) ≤ b := by exact_mod_cast hb.1
  have hhigh : (b : ℝ) ≤ piHigh := by exact_mod_cast hb.2
  have hwidth : (piHigh : ℝ) - piLow = 1 / 10 ^ 20 := by norm_num [piLow, piHigh]
  rw [abs_le]
  constructor <;> linarith [piLow_lt_pi, pi_lt_piHigh]

/-- A floor over the rationals, seen from the reals. -/
theorem floor_le_cast_lt (x : ℚ) : ((⌊x⌋ : ℤ) : ℝ) ≤ x ∧ (x : ℝ) < ⌊x⌋ + 1 :=
  ⟨by exact_mod_cast Int.floor_le x, by exact_mod_cast Int.lt_floor_add_one x⟩

/-! ## The turns -/

/-- DEG_PER_RAD at a rational of the bounds: both denominators are above 3. -/
theorem abs_degPerRad_sub_le {b : ℚ} (hb : b ∈ Set.Icc piLow piHigh) :
    |180 / (b : ℝ) - 180 / Real.pi| ≤ 1 / 10 ^ 18 := by
  have hthree : (3 : ℝ) < b := by
    have h : (3 : ℚ) < b := lt_trans (by norm_num) (decimals_of_mem hb).1
    exact_mod_cast h
  have hprod : 9 ≤ (b : ℝ) * Real.pi := by nlinarith [Real.pi_gt_three]
  have hdiff : |180 * Real.pi - b * 180| ≤ 180 / 10 ^ 20 := by
    rw [show 180 * Real.pi - b * 180 = -180 * (b - Real.pi) by ring, abs_mul]
    norm_num
    linarith [abs_sub_pi_le hb]
  rw [div_sub_div _ _ (by positivity) Real.pi_ne_zero, abs_div, abs_of_pos (by positivity : 0 < (b : ℝ) * Real.pi),
    div_le_iff₀ (by positivity)]
  linarith

theorem turns_eq_floor (v : Val) : ∃ b ∈ Set.Icc piLow piHigh, turns v = ⌊v.p / 360 + v.r / (2 * b)⌋ :=
  floorAtPi_eq_floor ..

theorem turns_eq_of_forall {v : Val} {k : ℤ} (h : ∀ b ∈ Set.Icc piLow piHigh, ⌊v.p / 360 + v.r / (2 * b)⌋ = k) :
    turns v = k := floorAtPi_eq_of_forall h ..

/-- The turns of a value, up to the bounds' margin on its angle part. -/
theorem turns_bracket (v : Val) :
    360 * (turns v : ℝ) ≤ toReal v + |(v.r : ℝ)| / 10 ^ 18 ∧
      toReal v - |(v.r : ℝ)| / 10 ^ 18 < 360 * (turns v : ℝ) + 360 := by
  obtain ⟨b, hb, heq⟩ := turns_eq_floor v
  have hexact : (360 * (v.p / 360 + v.r / (2 * b)) : ℝ) - toReal v = v.r * (180 / b - 180 / Real.pi) := by
    rw [toReal]
    ring
  have hmargin : |(360 * (v.p / 360 + v.r / (2 * b)) : ℝ) - toReal v| ≤ |(v.r : ℝ)| / 10 ^ 18 := by
    rw [hexact, abs_mul, div_eq_mul_one_div |(v.r : ℝ)|]
    exact mul_le_mul_of_nonneg_left (abs_degPerRad_sub_le hb) (abs_nonneg _)
  obtain ⟨hfloor, hnext⟩ := floor_le_cast_lt (v.p / 360 + v.r / (2 * b))
  rw [← heq] at hfloor hnext
  push_cast at hfloor hnext
  obtain ⟨hlow, hhigh⟩ := abs_le.mp hmargin
  constructor <;> linarith

theorem turns_ofRat (q : ℚ) : turns (Val.ofRat q) = ⌊q / 360⌋ :=
  turns_eq_of_forall fun b _ => by simp [Val.ofRat]

/-- Less than one turn of wire units: 62831 of them are below 20000 pi. -/
theorem turns_deg {r : ℤ} (hlow : 0 ≤ r) (hhigh : r ≤ 62831) : turns (deg r) = 0 := by
  refine turns_eq_of_forall fun b hb => ?_
  obtain ⟨hb, -⟩ := decimals_of_mem hb
  have hlow' : (0 : ℚ) ≤ r := by exact_mod_cast hlow
  have hhigh' : (r : ℚ) ≤ 62831 := by exact_mod_cast hhigh
  have hpos : 0 < 2 * b := by linarith
  rw [Int.floor_eq_zero_iff]
  simp only [deg, zero_div, zero_add]
  exact ⟨by positivity, by rw [div_lt_one hpos]; linarith⟩

/-- A negative count of 16 bits lies within the turn that was added to it. -/
theorem turns_negative_count {r : ℤ} (hlow : -32768 ≤ r) (hneg : r < 0) : turns ⟨360, (r : ℚ) / 10000⟩ = 0 := by
  refine turns_eq_of_forall fun b hb => ?_
  obtain ⟨hb, -⟩ := decimals_of_mem hb
  have hlow' : (-32768 : ℚ) ≤ r := by exact_mod_cast hlow
  have hneg' : (r : ℚ) < 0 := by exact_mod_cast hneg
  have hpos : 0 < 2 * b := by linarith
  have hturn : -1 ≤ (r : ℚ) / 10000 / (2 * b) := by
    rw [le_div_iff₀ hpos]
    linarith
  have hbelow : (r : ℚ) / 10000 / (2 * b) < 0 := div_neg_of_neg_of_pos (by linarith) hpos
  rw [Int.floor_eq_zero_iff]
  exact ⟨by linarith, by linarith⟩

/-! ## Normalisation -/

theorem mod360_of_turns_eq_zero {v : Val} (h : turns v = 0) : mod360 v = v := by
  simp [mod360, h, Val.add, Val.ofInt]

theorem toReal_mod360 (v : Val) : toReal (mod360 v) = toReal v - 360 * (turns v : ℝ) := by
  rw [mod360, toReal_add, toReal_ofInt]
  push_cast
  ring

theorem mod360_r (v : Val) : (mod360 v).r = v.r := add_zero _

/-- Within one turn, up to the bounds' margin on the angle part. -/
theorem mod360_range (v : Val) :
    -|(v.r : ℝ)| / 10 ^ 18 ≤ toReal (mod360 v) ∧ toReal (mod360 v) < 360 + |(v.r : ℝ)| / 10 ^ 18 := by
  obtain ⟨hlow, hhigh⟩ := turns_bracket v
  rw [toReal_mod360, neg_div]
  constructor <;> linarith

theorem mod360_ofRat (q : ℚ) : mod360 (Val.ofRat q) = Val.ofRat (q - 360 * ⌊q / 360⌋) := by
  rw [mod360, turns_ofRat]
  simp only [Val.add, Val.ofInt, Val.ofRat, Val.mk.injEq]
  refine ⟨?_, add_zero _⟩
  push_cast
  ring

theorem mod360_deg {r : ℤ} (hlow : 0 ≤ r) (hhigh : r ≤ 62831) : mod360 (deg r) = deg r :=
  mod360_of_turns_eq_zero (turns_deg hlow hhigh)

theorem mod360_of_isAngle {v : Val} (h : IsAngle v) : mod360 v = v := by
  obtain ⟨r, ⟨hlow, hhigh⟩, rfl⟩ := h
  apply mod360_of_turns_eq_zero
  split_ifs with hneg
  · exact turns_negative_count hlow hneg
  · exact turns_deg (by omega) (by omega)

/-- Settles O46: the turns are within the margin for every value, and exact where no pi is left to bound. -/
theorem setpointNormalised : Obligations.SetpointNormalised := by
  refine ⟨fun v => ⟨turns v, rfl, toReal_mod360 v, mod360_range v⟩, fun q => ⟨mod360_ofRat q, ?_, ?_⟩,
    fun v => mod360_of_isAngle, fun k hk => mod360_deg (by omega) (by omega)⟩
  · linarith [Int.floor_le (q / 360)]
  · linarith [Int.lt_floor_add_one (q / 360)]

/-! ## The wire units -/

/-- The exact conversion to wire units, before the rounding (44_command_encoder.md R232). -/
noncomputable def exactWire (v : Val) : ℝ := toReal v * (Real.pi / 180) * 10000

theorem exactWire_eq (v : Val) : exactWire v = v.p * (500 / 9) * Real.pi + 10000 * v.r := by
  rw [exactWire, toReal]
  field_simp
  ring

theorem wireUnits_eq_floor (v : Val) :
    ∃ b ∈ Set.Icc piLow piHigh, wireUnits v = ⌊v.p * (500 / 9) * b + 10000 * v.r + 1 / 2⌋ := floorAtPi_eq_floor ..

theorem wireUnits_eq_of_forall {v : Val} {k : ℤ}
    (h : ∀ b ∈ Set.Icc piLow piHigh, ⌊v.p * (500 / 9) * b + 10000 * v.r + 1 / 2⌋ = k) : wireUnits v = k :=
  floorAtPi_eq_of_forall h ..

/-- The wire units are rounded half up, up to the bounds' margin on the rational part. -/
theorem wireUnits_bracket (v : Val) :
    (wireUnits v : ℝ) ≤ exactWire v + 1 / 2 + |(v.p : ℝ)| / 10 ^ 18 ∧
      exactWire v + 1 / 2 - |(v.p : ℝ)| / 10 ^ 18 < (wireUnits v : ℝ) + 1 := by
  obtain ⟨b, hb, heq⟩ := wireUnits_eq_floor v
  have hmargin : |(v.p : ℝ) * (500 / 9 * (b - Real.pi))| ≤ |(v.p : ℝ)| / 10 ^ 18 := by
    rw [abs_mul, div_eq_mul_one_div, abs_mul]
    refine mul_le_mul_of_nonneg_left ?_ (abs_nonneg _)
    norm_num
    linarith [abs_sub_pi_le hb]
  obtain ⟨hfloor, hnext⟩ := floor_le_cast_lt (v.p * (500 / 9) * b + 10000 * v.r + 1 / 2)
  rw [← heq] at hfloor hnext
  push_cast at hfloor hnext
  obtain ⟨hlow, hhigh⟩ := abs_le.mp hmargin
  rw [exactWire_eq]
  constructor <;> linarith

theorem wireUnits_deg (r : ℤ) : wireUnits (deg r) = r := by
  refine wireUnits_eq_of_forall fun b _ => ?_
  rw [Int.floor_eq_iff]
  simp only [deg]
  constructor <;> linarith

/-- One turn is 62832 wire units, rounded. -/
theorem wireUnits_turn_add (r : ℤ) : wireUnits ⟨360, (r : ℚ) / 10000⟩ = 62832 + r := by
  refine wireUnits_eq_of_forall fun b hb => ?_
  obtain ⟨hlow, hhigh⟩ := decimals_of_mem hb
  rw [Int.floor_eq_iff]
  push_cast
  constructor <;> linarith

theorem wireUnits_ofRat_range {q : ℚ} (hlow : 0 ≤ q) (hhigh : q < 360) :
    0 ≤ wireUnits (Val.ofRat q) ∧ wireUnits (Val.ofRat q) ≤ 62832 := by
  obtain ⟨b, hb, heq⟩ := wireUnits_eq_floor (Val.ofRat q)
  obtain ⟨hblow, hbhigh⟩ := decimals_of_mem hb
  have hbelow : q * b ≤ 360 * (31415927 / 10 ^ 7) := by gcongr
  have habove : 0 ≤ q * b := mul_nonneg hlow (by linarith)
  rw [heq, Val.ofRat, Int.floor_nonneg, Int.floor_le_iff]
  push_cast
  constructor <;> linarith

theorem degNorm_of_neg {r : ℤ} (h : r < 0) : degNorm r = ⟨360, (r : ℚ) / 10000⟩ := by
  rw [degNorm, if_pos h]
  simp [deg, Val.add, Val.ofInt]

/-- Settles O47: within the margin for every value, and the same at all rationals of the bounds for the counts. -/
theorem wireUnitsRounded : Obligations.WireUnitsRounded := by
  refine ⟨wireUnits_bracket, fun q => wireUnits_ofRat_range, fun k hk => ?_, fun r hr hneg => ?_⟩
  · rw [mod360_deg (by omega) (by omega), wireUnits_deg]
  · rw [degNorm_of_neg hneg, mod360_of_turns_eq_zero (turns_negative_count hr.1 hneg), wireUnits_turn_add]

end Sys2Proof.Proofs
end

section
/-! The command line: the hexadecimal text of a number is the text of its bytes, so the line CMD sends is the one over
mathematical integers (44_command_encoder.md R234 to R236, R238). -/

namespace Sys2Proof.Proofs

open Sys2Proof Sys2Proof.Machine

/-! ## The text of a number -/

theorem hexChar_eq (n : BitVec 4) :
    hexChar n = BitVec.ofNat 8 (if n.toNat < 10 then 0x30 + n.toNat else 0x37 + n.toNat) := by
  rw [hexChar]
  split <;> rfl

theorem hexText_succ (n v : ℕ) : hexText (n + 1) v = hexText n (v / 16) ++ [hexChar (BitVec.ofNat 4 v)] := by
  rw [hexText, hexChar_eq, BitVec.toNat_ofNat]

/-- The last two digits of a number are the text of its low byte. -/
theorem hexText_add_two (n v : ℕ) : hexText (n + 2) v = hexText n (v / 256) ++ hexOfByte (BitVec.ofNat 8 v) := by
  have hhigh : (BitVec.ofNat 8 v).extractLsb' 4 4 = BitVec.ofNat 4 (v / 16) := by
    apply BitVec.eq_of_toNat_eq
    simp only [BitVec.extractLsb'_toNat, BitVec.toNat_ofNat, Nat.shiftRight_eq_div_pow]
    omega
  have hlow : (BitVec.ofNat 8 v).extractLsb' 0 4 = BitVec.ofNat 4 v := by
    apply BitVec.eq_of_toNat_eq
    simp only [BitVec.extractLsb'_toNat, BitVec.toNat_ofNat, Nat.shiftRight_eq_div_pow]
    omega
  rw [hexText_succ, hexText_succ, hexOfByte, hhigh, hlow, Nat.div_div_eq_div_mul, List.append_assoc]
  rfl

theorem hexText_byte (b : Byte) : hexText 2 b.toNat = hexOfByte b := by
  rw [hexText_add_two, BitVec.ofNat_toNat, BitVec.setWidth_eq]
  rfl

theorem hexText_id (id : CanId) : hexText 8 id.toNat = hexOfBytes (bytesOfId id) := by
  simp only [hexText_add_two, Nat.div_div_eq_div_mul, bytesOfId, BitVec.extractLsb', Nat.shiftRight_eq_div_pow]
  simp [hexText, hexOfBytes]

/-! ## The line and its emission -/

/-- The text of the command's frame, byte by byte. -/
theorem lineText_command (prio : BitVec 3) (sa : Byte) (mode : BitVec 2) (engage : Bool) (w : BitVec 16) :
    lineText (outboundId prio sa) (commandPayload mode engage w) =
      commandText prio.toNat sa.toNat mode.toNat w.toNat engage := by
  have hid : hexText 8 (prio.toNat * 2 ^ 26 + 0x01F10500 + sa.toNat) = hexOfBytes (bytesOfId (outboundId prio sa)) := by
    rw [← hexText_id, outboundId_toNat, Nat.mul_comm prio.toNat]
  have hmode : hexText 2 mode.toNat = hexOfByte (mode.zeroExtend 8) := by
    rw [← hexText_byte, BitVec.toNat_setWidth, Nat.mod_eq_of_lt (by omega)]
  have hengage : hexText 2 (if engage then 1 else 0) = hexOfByte (if engage then 1 else 0) := by
    cases engage <;> rfl
  have hlow : hexText 2 (w.toNat % 256) = hexOfByte (w.extractLsb' 0 8) := by
    rw [← hexText_byte, BitVec.extractLsb'_toNat]
    rfl
  have hhigh : hexText 2 (w.toNat / 256) = hexOfByte (w.extractLsb' 8 8) := by
    rw [← hexText_byte, BitVec.extractLsb'_toNat, Nat.shiftRight_eq_div_pow, Nat.mod_eq_of_lt (by omega)]
  have hzeros : hexText 8 0 = hexOfBytes [0, 0, 0, 0] := by decide
  rw [commandText, hid, hmode, hengage, hlow, hhigh, hzeros]
  simp [lineText, commandPayload, hexOfBytes, charT, hexChar]

theorem setpointField_toNat (v : Val) : (setpointField v).toNat = (wireUnits (mod360 v) % 65536).toNat :=
  BitVec.toNat_ofInt ..

/-- The outbound line writes its one output and nothing else. -/
theorem exec_cmdTx (prio : BitVec 3) (sa : Byte) (mode : BitVec 2) (engage : Bool) (w : BitVec 16) (s : State) :
    exec (.cmdTx prio sa mode engage w) s =
      .next (s.emit (.tx (lineText (outboundId prio sa) (commandPayload mode engage w) ++ eolBytes s.cfg.txEol))) := rfl

/-- CMD is the outbound line of the configured sender and the setpoint's field. -/
theorem exec_cmd (engage : Bool) (mode : BitVec 2) (v : Val) (s : State) :
    exec (.cmd engage mode v) s =
      exec (.cmdTx s.cfg.txPriority s.cfg.txSrcAddr mode engage (setpointField v)) s := rfl

/-- Settles O45: CMD runs the outbound line, whose text is that of the integers. -/
theorem commandEmitsLine : Obligations.CommandEmitsLine := by
  rintro s eol heol
  have hterminator : eolBytes s.cfg.txEol = eol := by
    rw [heol]
    cases s.cfg.txEol <;> rfl
  refine ⟨fun e m v => ?_, fun prio sa e m w => ?_⟩
  · rw [exec_cmd, exec_cmdTx, hterminator, lineText_command, setpointField_toNat]
    rfl
  · rw [exec_cmdTx, hterminator, lineText_command]
    rfl

end Sys2Proof.Proofs
end

section
/-! The command received: a core that is fed the line CMD sends takes mode, engaged flag and setpoint from its one frame,
and how far the received setpoint lies from the commanded one (44_command_encoder.md R233, R237, 70_reset_and_hazards.md
R289). -/

namespace Sys2Proof.Proofs

open Sys2Proof Sys2Proof.Machine

/-! ## The receiver -/

/-- A line and whichever terminator TX_EOL appends: after CR the LF of CRLF ends an empty line. -/
theorem feed_line_eol {s : State} {chars : List Byte} {f : CanFrame} (hwr : s.wr = 0) (hwf : s.lb.wf = true)
    (hcap : 26 ≤ s.cfg.lineCap) (hf : parseLine chars = .ok f) (eol : TxEol) :
    ∃ t t', feed (chars ++ eolBytes eol) s = .next t ∧ exec (decodeCan s.cfg.pgnUseEdp f) s = .next t' ∧
      t = { s with lb := t.lb, ts := t'.ts, out := s.out ++ [.frame f] } := by
  cases eol with
  | cr => exact fedLineIsDecoded s chars f 0x0D hwr hwf hcap hf (.inl rfl)
  | lf => exact fedLineIsDecoded s chars f 0x0A hwr hwf hcap hf (.inr rfl)
  | crlf =>
    obtain ⟨t, t', hfeed, hexec, ht⟩ := fedLineIsDecoded s chars f 0x0D hwr hwf hcap hf (.inl rfl)
    have hempty : t.wr = 0 := by rw [ht, hwr]
    obtain ⟨-, hlf, -⟩ := emptyLineIgnored t hempty
    refine ⟨t, t', ?_, hexec, ht⟩
    rw [show chars ++ eolBytes .crlf = chars ++ [0x0D] ++ [0x0A] by simp [eolBytes], feed_append hfeed, feed_cons hlf]
    rfl

/-- The frame of a command line. -/
def commandFrame (prio : BitVec 3) (sa : Byte) (mode : BitVec 2) (engage : Bool) (w : BitVec 16) : CanFrame :=
  frameOf (outboundId prio sa) (commandPayload mode engage w)

/-- The setpoint after a command's field: kept by the sentinel, else the angle of the signed field. -/
def receivedSetpoint (current : Val) (w : BitVec 16) : Val := if w.toNat = 0x7FFF then current else angleOf (s16 w.toNat)

/-- The registers after a command's frame. -/
def commandedTs (mode : BitVec 2) (engage : Bool) (w : BitVec 16) (ts : Telemetry) : Telemetry :=
  { ts with apMode := mode, apEngaged := engage, apSetpointDeg := receivedSetpoint ts.apSetpointDeg w }

theorem parseLine_command (prio : BitVec 3) (sa : Byte) (mode : BitVec 2) (engage : Bool) (w : BitVec 16) :
    parseLine (lineText (outboundId prio sa) (commandPayload mode engage w)) =
      .ok (commandFrame prio sa mode engage w) := parseLine_lineText _ (Nat.le_refl 8)

/-- The sender's priority and address leave the PGN alone, and so does the extended data page. -/
theorem pgnOfId_outboundId (edp : Bool) (prio : BitVec 3) (sa : Byte) : pgnOfId edp (outboundId prio sa) = 127237 := by
  have hsa := sa.isLt
  rw [pgnOfId_eq, outboundId_toNat]
  cases edp with
  | false => rw [pageBits_false, if_neg (by omega)]; omega
  | true => rw [pageBits_true, if_neg (by omega)]; omega

section
variable (prio : BitVec 3) (sa : Byte) (mode : BitVec 2) (engage : Bool) (w : BitVec 16)

theorem commandFrame_mode : byteAt (commandFrame prio sa mode engage w) 0 = mode.toNat := by
  refine (byteAt_frameOf _ _ (by decide)).trans ?_
  change (mode.zeroExtend 8).toNat = mode.toNat
  rw [BitVec.toNat_setWidth, Nat.mod_eq_of_lt (by omega)]

theorem commandFrame_engaged : byteAt (commandFrame prio sa mode engage w) 1 = if engage then 1 else 0 := by
  refine (byteAt_frameOf _ _ (by decide)).trans ?_
  cases engage <;> rfl

theorem commandFrame_field : le16 (commandFrame prio sa mode engage w) 2 = w.toNat := by
  have hlow : byteAt (commandFrame prio sa mode engage w) 2 = (w.extractLsb' 0 8).toNat := byteAt_frameOf _ _ (by decide)
  have hhigh : byteAt (commandFrame prio sa mode engage w) 3 = (w.extractLsb' 8 8).toNat := byteAt_frameOf _ _ (by decide)
  rw [le16, hlow, hhigh, BitVec.extractLsb'_toNat, BitVec.extractLsb'_toNat, Nat.shiftRight_eq_div_pow,
    Nat.shiftRight_eq_div_pow]
  omega

/-- The frame's decode takes all three fields of the command. -/
theorem exec_commandFrame (s : State) :
    exec (decodeCan s.cfg.pgnUseEdp (commandFrame prio sa mode engage w)) s =
      .next { s with ts := commandedTs mode engage w s.ts } := by
  have hselected : decodeCan s.cfg.pgnUseEdp (commandFrame prio sa mode engage w) =
      .pgn127237 (commandFrame prio sa mode engage w) :=
    (decodeCan_eq_instr_iff _ _ .pgn127237).mpr ((ofPgn_eq_iff rfl _).mpr (pgnOfId_outboundId _ prio sa))
  obtain ⟨-, hdecode⟩ := autopilotDecoded (commandFrame prio sa mode engage w) s
  have hmode : mode.toNat ≤ 3 := by omega
  have hlen : (commandFrame prio sa mode engage w).len = 8 := rfl
  rw [hselected, hdecode (by omega), commandFrame_mode, commandFrame_engaged, commandFrame_field, if_pos hmode,
    BitVec.ofNat_toNat, BitVec.setWidth_eq]
  cases engage <;> rfl

end

/-- What CMD sends and what a core with an empty buffer makes of it. -/
theorem command_received (s r : State) (e : Bool) (m : BitVec 2) (v : Val) (hwr : r.wr = 0) (hwf : r.lb.wf = true)
    (hcap : 26 ≤ r.cfg.lineCap) :
    ∃ t bytes u f, exec (.cmd e m v) s = .next t ∧ t.out = s.out ++ [.tx bytes] ∧ feed bytes r = .next u ∧
      u.out = r.out ++ [.frame f] ∧ pgnOfId r.cfg.pgnUseEdp f.id = 127237 ∧
      u.ts.apMode = m ∧ u.ts.apEngaged = e ∧
      u.ts.apSetpointDeg = receivedSetpoint r.ts.apSetpointDeg (setpointField v) ∧ u.wr = 0 := by
  obtain ⟨u, u', hfeed, hexec, hu⟩ := feed_line_eol hwr hwf hcap
    (parseLine_command s.cfg.txPriority s.cfg.txSrcAddr m e (setpointField v)) s.cfg.txEol
  rw [exec_commandFrame] at hexec
  cases hexec
  have hts : u.ts = commandedTs m e (setpointField v) r.ts := by rw [hu]
  refine ⟨_, _, u, commandFrame s.cfg.txPriority s.cfg.txSrcAddr m e (setpointField v),
    (exec_cmd ..).trans (exec_cmdTx ..), State.emit_out .., hfeed, ?_, pgnOfId_outboundId .., ?_, ?_, ?_, ?_⟩
  · rw [hu]
  · rw [hts, commandedTs]
  · rw [hts, commandedTs]
  · rw [hts, commandedTs]
  · rw [hu, hwr]

/-! ## The received setpoint -/

theorem setpointField_toNat_of_range {v : Val} (hlow : 0 ≤ wireUnits (mod360 v)) (hhigh : wireUnits (mod360 v) < 65536) :
    ((setpointField v).toNat : ℤ) = wireUnits (mod360 v) := by
  rw [setpointField_toNat]
  omega

theorem receivedSetpoint_low {v : Val} (hlow : 0 ≤ wireUnits (mod360 v)) (hhigh : wireUnits (mod360 v) < 32767)
    (current : Val) : receivedSetpoint current (setpointField v) = deg (wireUnits (mod360 v)) := by
  have hfield := setpointField_toNat_of_range hlow (by omega)
  rw [receivedSetpoint, if_neg (by omega), ← degNorm_eq_angleOf, s16, if_neg (by omega), hfield, degNorm,
    if_neg (by omega)]

theorem receivedSetpoint_sentinel {v : Val} (h : wireUnits (mod360 v) = 32767) (current : Val) :
    receivedSetpoint current (setpointField v) = current := by
  have hfield := setpointField_toNat_of_range (v := v) (by omega) (by omega)
  exact if_pos (by omega)

theorem receivedSetpoint_high {v : Val} (hlow : 32768 ≤ wireUnits (mod360 v)) (hhigh : wireUnits (mod360 v) < 65536)
    (current : Val) :
    receivedSetpoint current (setpointField v) = (deg (wireUnits (mod360 v) - 65536)).add (Val.ofInt 360) := by
  have hfield := setpointField_toNat_of_range (v := v) (by omega) hhigh
  rw [receivedSetpoint, if_neg (by omega), ← degNorm_eq_angleOf, s16, if_pos (by omega), hfield, degNorm,
    if_pos (by omega)]

/-! ## The error of the rounding -/

theorem abs_r_le_of_moderate {v : Val} (h : ModerateSetpoint v) : |(v.r : ℝ)| ≤ 10 ^ 12 := by
  rcases h with hr | ⟨-, hr⟩
  · simp [hr]
  · exact_mod_cast hr

/-- The rational part is what the angle part leaves of one turn. -/
theorem abs_mod360_p_le {v : Val} (h : ModerateSetpoint v) : |((mod360 v).p : ℝ)| ≤ 10 ^ 14 := by
  have hr := abs_r_le_of_moderate h
  obtain ⟨hlow, hhigh⟩ := mod360_range v
  have hangle : |(v.r : ℝ) * (180 / Real.pi)| ≤ 10 ^ 12 * 60 := by
    rw [abs_mul, abs_of_pos degPerRad_pos]
    exact mul_le_mul hr degPerRad_lt.le degPerRad_pos.le (by norm_num)
  have hp : ((mod360 v).p : ℝ) = toReal (mod360 v) - v.r * (180 / Real.pi) := by
    rw [toReal, mod360_r]
    ring
  obtain ⟨hangleLow, hangleHigh⟩ := abs_le.mp hangle
  rw [hp, abs_le]
  constructor <;> linarith

/-- Half a unit of rounding and the margin of log 7. -/
theorem abs_wireUnits_sub_le {v : Val} (h : ModerateSetpoint v) :
    |(wireUnits (mod360 v) : ℝ) - exactWire (mod360 v)| ≤ 1 / 2 + 1 / 10 ^ 4 := by
  have hp := abs_mod360_p_le h
  obtain ⟨hlow, hhigh⟩ := wireUnits_bracket (mod360 v)
  rw [abs_le]
  constructor <;> linarith

theorem toReal_eq_exactWire (v : Val) : toReal v = exactWire v * (1 / 10000) * (180 / Real.pi) := by
  rw [exactWire]
  field_simp

/-- The angle of the wire units, within 0.00287 degrees of the setpoint they were rounded from. -/
theorem abs_toReal_deg_wireUnits_sub_lt {v : Val} (h : ModerateSetpoint v) :
    |toReal (deg (wireUnits (mod360 v))) - toReal (mod360 v)| < 287 / 100000 := by
  have hunit : 180 / Real.pi < 57.33 := by
    rw [div_lt_iff₀ Real.pi_pos]
    linarith [Real.pi_gt_d2]
  rw [toReal_deg, toReal_eq_exactWire (mod360 v), ← sub_mul, ← sub_mul, abs_mul, abs_mul, abs_of_pos degPerRad_pos,
    abs_of_pos (by norm_num : (0 : ℝ) < 1 / 10000)]
  calc |(wireUnits (mod360 v) : ℝ) - exactWire (mod360 v)| * (1 / 10000) * (180 / Real.pi)
    _ ≤ (1 / 2 + 1 / 10 ^ 4) * (1 / 10000) * 57.33 := by
      gcongr
      exact abs_wireUnits_sub_le h
    _ < 287 / 100000 := by norm_num

/-- Below 187.73821 degrees the wire units stay below the sentinel. -/
theorem wireUnits_range_of_lt {v : Val} (h : ModerateSetpoint v) (hlt : toReal (mod360 v) < 18773821 / 100000) :
    0 ≤ wireUnits (mod360 v) ∧ wireUnits (mod360 v) < 32767 := by
  have hr := abs_r_le_of_moderate h
  obtain ⟨hrange, -⟩ := mod360_range v
  obtain ⟨hlow, hhigh⟩ := abs_le.mp (abs_wireUnits_sub_le h)
  have hexact : exactWire (mod360 v) = toReal (mod360 v) * Real.pi * (500 / 9) := by
    rw [exactWire]
    ring
  have hdeg : -(1 / 10 ^ 6) ≤ toReal (mod360 v) := by linarith
  have hbelow := mul_le_mul_of_nonneg_right hdeg Real.pi_pos.le
  have habove := mul_lt_mul_of_pos_right hlt Real.pi_pos
  have hnonneg : (-1 : ℝ) < wireUnits (mod360 v) := by linarith [Real.pi_lt_four]
  have hsentinel : (wireUnits (mod360 v) : ℝ) < 32767 := by linarith [Real.pi_lt_d20]
  have hnonneg' : -1 < wireUnits (mod360 v) := by exact_mod_cast hnonneg
  exact ⟨by omega, by exact_mod_cast hsentinel⟩

/-! ## The command received -/

/-- Settles O48: below the sentinel the received setpoint is the angle of the wire units themselves. -/
theorem commandRoundTrip : Obligations.CommandRoundTrip := by
  intro s r e m v hmoderate hlt hwr hwf hcap
  obtain ⟨t, bytes, u, f, hexec, hout, hfeed, hframe, hpgn, hmode, hengaged, hsetpoint, hempty⟩ :=
    command_received s r e m v hwr hwf hcap
  obtain ⟨hlow, hhigh⟩ := wireUnits_range_of_lt hmoderate hlt
  refine ⟨t, bytes, u, f, hexec, hout, hfeed, hframe, hpgn, hmode, hengaged, ?_, hempty⟩
  rw [hsetpoint, receivedSetpoint_low hlow hhigh]
  exact abs_toReal_deg_wireUnits_sub_lt hmoderate

/-- Settles O49: the field of 32767 units is the sentinel's word. -/
theorem sentinelSetpointNotReceived : Obligations.SentinelSetpointNotReceived := by
  intro s r e m v hunits hwr hwf hcap
  obtain ⟨t, bytes, u, f, hexec, hout, hfeed, hframe, hpgn, hmode, hengaged, hsetpoint, -⟩ :=
    command_received s r e m v hwr hwf hcap
  exact ⟨t, bytes, u, f, hexec, hout, hfeed, hframe, hpgn, hmode, hengaged,
    hsetpoint.trans (receivedSetpoint_sentinel hunits _)⟩

/-- From 32768 units on the receiver reads 65536 units less and adds one turn. -/
theorem toReal_deg_sub_add_turn (n : ℤ) : toReal ((deg (n - 65536)).add (Val.ofInt 360)) =
    toReal (deg n) - (65536 * 180 / (10000 * Real.pi) - 360) := by
  rw [toReal_add, toReal_deg, toReal_deg, toReal_ofInt]
  push_cast
  field_simp
  ring

/-- Settles O50: the offset is exact, the rest is the error of the rounding. -/
theorem highSetpointReceivedLow : Obligations.HighSetpointReceivedLow := by
  intro s r e m v hlow hhigh hwr hwf hcap
  obtain ⟨t, bytes, u, f, hexec, hout, hfeed, hframe, hpgn, hmode, hengaged, hsetpoint, -⟩ :=
    command_received s r e m v hwr hwf hcap
  have hreceived := hsetpoint.trans (receivedSetpoint_high hlow (by omega) _)
  refine ⟨t, bytes, u, f, hexec, hout, hfeed, hframe, hpgn, hmode, hengaged, hreceived, fun hmoderate => ?_⟩
  rw [hreceived, toReal_deg_sub_add_turn, sub_sub_sub_cancel_right]
  exact abs_toReal_deg_wireUnits_sub_lt hmoderate

end Sys2Proof.Proofs
end

section
/-! The drop and the stops: a line outside the grammar and an overflow leave nothing but an empty buffer, and no operation
but the reserved one stops the core (60_exceptions.md R250 to R263, 93_implementation_defined.md U4). -/

namespace Sys2Proof.Proofs

open Sys2Proof Sys2Proof.Machine

/-! ## The drop -/

/-- Settles O20. -/
theorem malformedLineDropped : Obligations.MalformedLineDropped :=
  fun _ _ hwr hparse => exec_terminators (endOfLine_of_error (Nat.ne_of_gt hwr) hparse)

theorem execData_of_full {s : State} (b : Byte) (h : s.cfg.lineCap ≤ s.wr) : execData b s = .next (s.setWr 0) := by
  rcases execData_cases b s with ⟨hroom, -⟩ | ⟨-, heq⟩
  · exact absurd hroom (Nat.not_lt.mpr h)
  · exact heq

/-- Settles O22. -/
theorem overflowDiscards : Obligations.OverflowDiscards := by
  intro s b hcr hlf hfull
  have hdrop : execData b s = .next (s.setWr 0) := execData_of_full b (Nat.le_of_eq hfull.symm)
  exact ⟨hdrop, (exec_rxbyte_data (not_or_intro hcr hlf) s).trans hdrop⟩

/-! ## The operations -/

/-- Settles O15. -/
theorem reservedOperationRefused : Obligations.ReservedOperationRefused := fun _ => rfl

theorem runDecoder_completes (d : Decoder) (f : CanFrame) (s : State) : ∃ t, runDecoder d f s = .next t := by
  obtain ⟨g, hg⟩ := runDecoder_eq_runFrame d f s.cfg.pgnUseEdp
  exact ⟨_, (hg s rfl).trans (runFrame_eq g s)⟩

theorem endOfLine_completes (s : State) : ∃ t, endOfLine s = .next t := by
  obtain ⟨t, heq, -⟩ := endOfLine_next s
  exact ⟨t, heq⟩

theorem execData_completes (b : Byte) (s : State) : ∃ t, execData b s = .next t := by
  rcases execData_cases b s with ⟨-, heq⟩ | ⟨-, heq⟩ <;> exact ⟨_, heq⟩

theorem execRxbyte_completes (b : Byte) (s : State) : ∃ t, execRxbyte b s = .next t := by
  rcases execRxbyte_cases b s with ⟨-, heq⟩ | ⟨-, -, heq⟩ <;> rw [heq]
  · exact endOfLine_completes s
  · exact execData_completes b s

theorem execSample_completes (now : Nat) (s : State) : ∃ t, execSample now s = .next t := by
  rcases execSample_cases now s with ⟨-, heq⟩ | ⟨-, heq⟩ <;> exact ⟨_, heq⟩

/-- Settles O14, row by row: a line's row hands its frame on, and a frame's row is its decoder. -/
theorem everyOperationCompletes : Obligations.EveryOperationCompletes := by
  intro i s hi
  cases i with
  | rsvd => exact absurd rfl hi
  | reset | cmd | cmdTx => exact ⟨_, rfl⟩
  | rxbyte b => exact execRxbyte_completes b s
  | sample now => exact execSample_completes now s
  | eolCr | eolLf => exact endOfLine_completes s
  | data b => exact execData_completes b s
  | tline0 | tline1 | tline2 | tline3 | tline4 | tline5 | tline6 | tline7 | tline8 => exact ⟨_, acceptFrame_eq ..⟩
  | pgn128259 f => exact runDecoder_completes .pgn128259 f s
  | pgn127488 f => exact runDecoder_completes .pgn127488 f s
  | pgn127493 f => exact runDecoder_completes .pgn127493 f s
  | pgn127508 f => exact runDecoder_completes .pgn127508 f s
  | pgn127506 f => exact runDecoder_completes .pgn127506 f s
  | pgn130306 f => exact runDecoder_completes .pgn130306 f s
  | pgn127250 f => exact runDecoder_completes .pgn127250 f s
  | pgn127245 f => exact runDecoder_completes .pgn127245 f s
  | pgn127237 f => exact runDecoder_completes .pgn127237 f s
  | ignore f => exact runDecoder_completes .ignore f s

/-- RSVD is the one operation that stops the core. -/
theorem exec_completes_iff (i : Instr) (s : State) : (∃ t, exec i s = .next t) ↔ i ≠ .rsvd := by
  constructor
  · rintro ⟨t, ht⟩ rfl
    cases (reservedOperationRefused s).symm.trans ht
  · exact everyOperationCompletes i s

/-! ## The step -/

/-- The presentations of the reserved operation: RESET overrides it (30_encoding.md R91). -/
theorem decodePort_eq_rsvd_iff (p : PortIn) :
    decodePort p = .ok .rsvd ↔ p.rst = false ∧ p.opValid = true ∧ p.op = 3 := by
  have hop : p.op = 3 ↔ p.op ≠ 0 ∧ p.op ≠ 1 ∧ p.op ≠ 2 := by bv_omega
  unfold decodePort
  split_ifs <;> simp_all

/-- Settles O57: with a legal configuration a step stops exactly when the presented input decodes to RSVD. -/
theorem stepCompletesExactly : Obligations.StepCompletesExactly := by
  intro s
  simp only [← decodePort_eq_rsvd_iff]
  rcases step_cases s with ⟨hok, hinp, heq⟩ | ⟨hok, p, rest, hinp, ⟨i, hi, heq⟩ | ⟨r, hr, heq⟩⟩ | ⟨hbad, heq⟩ <;> rw [heq]
  · simp [hok, hinp]
  · simp [hok, hinp, hi, exec_completes_iff]
  · simp [hok, hinp, hr]
  · simp [hbad]

end Sys2Proof.Proofs
end

section
/-! RESET: every channel of the configuration starts anew, with empty rings and accumulators (70_reset_and_hazards.md R280,
10_state.md R36). -/

namespace Sys2Proof.Proofs

open Sys2Proof Sys2Proof.Machine

theorem exec_reset (s : State) : exec .reset s = .next s.resetCore := rfl

theorem resetCore_ag_getElem? {s : State} {k : Nat} {c : ChanCfg} (h : s.cfg.chans[k]? = some c) :
    s.resetCore.ag[k]? = some (Chan.fresh c) := by
  rw [State.resetCore_ag, List.getElem?_map, h, Option.map_some]

theorem eq_empty_of_ring_fresh {c : ChanCfg} {r : Series}
    (h : r = (Chan.fresh c).fine ∨ r = (Chan.fresh c).medium ∨ r = (Chan.fresh c).coarse) : r = Series.empty c.cap := by
  rcases h with hfine | hmedium | hcoarse
  · exact hfine
  · exact hmedium
  · exact hcoarse

/-- Settles O16: the registers are those of `State.resetCore`, and each configured channel is the fresh one. -/
theorem resetReturnsCore : Obligations.ResetReturnsCore := by
  intro s
  have hlength : s.resetCore.ag.length = s.cfg.chans.length := by simp
  refine ⟨s.resetCore, exec_reset s, State.resetCore_wr s, State.resetCore_ts s, State.resetCore_cfg s,
    State.resetCore_out s, State.resetCore_inp s, State.resetCore_sinkAns s, hlength, fun k c hc => ?_⟩
  refine ⟨Chan.fresh c, resetCore_ag_getElem? hc, rfl, fun r hr => ?_, rfl, rfl⟩
  obtain rfl := eq_empty_of_ring_fresh hr
  exact ⟨rfl, rfl, rfl⟩

end Sys2Proof.Proofs
end
